-- ==== Sys2Proof/Word.lean ====
section
/-! DEFINITION. The one word type of the machine.

Rule R5 (00_scope.md): every register, memory cell, operand and immediate is an unsigned byte.
Rule R26 (10_state.md): the `info` field of the fault record has 9 bits and its `cause` 3 bits. -/

namespace Sys2Proof

/-- An unsigned 8-bit value, bits numbered 7 down to 0 (R5). -/
abbrev Byte := BitVec 8

/-- The index of a register that exists, R0 to R7 (R10). -/
abbrev RegIx := Fin 8

end Sys2Proof
end

