-- ==== Sys2Proof/Config.lean ====
section
/-! DEFINITION. The parameters of the model (R4, 00_scope.md): the illegal-opcode policy, the CMP flag policy,
the optional ALU instructions, and the opcode byte of every mnemonic. The defaults stand in
Sys2Proof/Decode.lean (`defaultConfig`). The machine carries its configuration in a constant field of State
(log entry 2); no instruction writes it.

Nothing of this machine is a free value: 93_implementation_defined.md, "Nothing in this machine is treated as
`any value` or `stuck`". -/

namespace Sys2Proof

/-- The operations the dispatch table can bind, one per mnemonic: the 13 of R66 and the three optional ones of
R67 (30_encoding.md). -/
inductive Op where
  | hlt | ldi | prn | add | sub | mul | div | mod | cmp | push | pop | call | ret | jmp | jeq | jne
  deriving DecidableEq, Repr

/-- The four instruction formats of R63. -/
inductive Format where
  /-- one byte, no operand -/
  | z
  /-- two bytes, operand A a register -/
  | r
  /-- three bytes, operands A and B registers -/
  | rr
  /-- three bytes, operand A a register and operand B an immediate -/
  | ri
  deriving DecidableEq, Repr

/-- `ILLEGAL_OPCODE_POLICY` (R4, R86, decision D3). -/
inductive IllegalOpcodePolicy where
  /-- an unbound opcode byte raises `IllegalOpcode` (the default) -/
  | fault
  /-- an unbound opcode byte has no effect but the advance of `pc` -/
  | skip
  deriving DecidableEq, Repr

/-- `CMP_FLAG_POLICY` (R4, R151, decision D4). -/
inductive CmpFlagPolicy where
  /-- CMP writes all three flags (the default) -/
  | clearThenSet
  /-- CMP only ever sets a flag -/
  | setOnly
  deriving DecidableEq, Repr

/-- The parameters `OPC_HLT` ... `OPC_JNE`, `OPC_SUB`, `OPC_DIV`, `OPC_MOD` (R4, R66, R67, decision D1). -/
structure OpcodeMap where
  hlt  : Byte
  ldi  : Byte
  prn  : Byte
  add  : Byte
  sub  : Byte
  mul  : Byte
  div  : Byte
  mod  : Byte
  cmp  : Byte
  push : Byte
  pop  : Byte
  call : Byte
  ret  : Byte
  jmp  : Byte
  jeq  : Byte
  jne  : Byte
  deriving DecidableEq, Repr

/-- What is fixed for one machine (R4). -/
structure Config where
  /-- `ILLEGAL_OPCODE_POLICY` -/
  illegalOpcodePolicy : IllegalOpcodePolicy
  /-- `CMP_FLAG_POLICY` -/
  cmpFlagPolicy : CmpFlagPolicy
  /-- `DISPATCH_ALU_EXT`: whether SUB, DIV and MOD are bound in the dispatch table (R67, R117, decision D12) -/
  dispatchAluExt : Bool
  /-- the opcode byte of every mnemonic -/
  opcodes : OpcodeMap
  deriving DecidableEq, Repr

end Sys2Proof
end

