-- ==== Sys2Proof/Syntax.lean ====
section
/-! DEFINITION. The instructions: one constructor per row of spec/opcode_table.json (R66, R67 of 30_encoding.md).

An operand is a whole byte (R64): `ra` and `rb` are register indices of which only 0 to 7 name a register, and
the index is checked when the register is accessed (R13, R72), so an instruction with an index above 7 is an
instruction of this type too. `imm` is the immediate of LDI, used as is. -/

namespace Sys2Proof

inductive Instr where
  /-- R100 -/
  | hlt
  /-- R102 -/
  | ldi (ra imm : Byte)
  /-- R104 -/
  | prn (ra : Byte)
  /-- R118 -/
  | add (ra rb : Byte)
  /-- R120, bound only with `DISPATCH_ALU_EXT = true` -/
  | sub (ra rb : Byte)
  /-- R119 -/
  | mul (ra rb : Byte)
  /-- R121, bound only with `DISPATCH_ALU_EXT = true` -/
  | div (ra rb : Byte)
  /-- R122, bound only with `DISPATCH_ALU_EXT = true` -/
  | mod (ra rb : Byte)
  /-- R151 -/
  | cmp (ra rb : Byte)
  /-- R130 -/
  | push (ra : Byte)
  /-- R132 -/
  | pop (ra : Byte)
  /-- R140 -/
  | call (ra : Byte)
  /-- R142 -/
  | ret
  /-- R153 -/
  | jmp (ra : Byte)
  /-- R154 -/
  | jeq (ra : Byte)
  /-- R156 -/
  | jne (ra : Byte)
  deriving DecidableEq, Repr

end Sys2Proof
end

