-- ==== Sys2Proof/WellFormed.lean ====
section
/-! DEFINITION. The check on instructions as syntax: every register operand is an index 0 to 7 (R10, R13).

R74 (30_encoding.md): "A register operand above 7 cannot be written in this syntax and is shown as a raw byte."
Decoding does not use this check (R72: "Operand bytes have no illegal encodings at decode time"), and the machine
gives an instruction that fails it the meaning of R13. -/

namespace Sys2Proof

/-- The operand byte names a register (R13). -/
def isRegByte (i : Byte) : Bool := decide (i.toNat < 8)

/-- Every register operand of the instruction is 0 to 7. -/
def Instr.wf : Instr → Bool
  | .hlt => true
  | .ldi ra _ => isRegByte ra
  | .prn ra => isRegByte ra
  | .add ra rb => isRegByte ra && isRegByte rb
  | .sub ra rb => isRegByte ra && isRegByte rb
  | .mul ra rb => isRegByte ra && isRegByte rb
  | .div ra rb => isRegByte ra && isRegByte rb
  | .mod ra rb => isRegByte ra && isRegByte rb
  | .cmp ra rb => isRegByte ra && isRegByte rb
  | .push ra => isRegByte ra
  | .pop ra => isRegByte ra
  | .call ra => isRegByte ra
  | .ret => true
  | .jmp ra => isRegByte ra
  | .jeq ra => isRegByte ra
  | .jne ra => isRegByte ra

end Sys2Proof
end

