-- ==== Sys2Proof/Decode.lean ====
section
/-! DEFINITION. The opcode table, the default parameters, the decoder and the encoder (30_encoding.md).

The decoder is total on lists of bytes: it answers an instruction and the bytes after it, or an error that says
why. It looks the WHOLE opcode byte up (R68, 90_conflicts.md C1) in a table that is a parameter (R66). -/

namespace Sys2Proof

/-- The format of each operation (R63, R66, R67). -/
def Op.format : Op → Format
  | .hlt | .ret => .z
  | .prn | .push | .pop | .call | .jmp | .jeq | .jne => .r
  | .add | .sub | .mul | .div | .mod | .cmp => .rr
  | .ldi => .ri

/-- How many operand bytes a format has (R63). -/
def Format.operandCount : Format → Nat
  | .z => 0
  | .r => 1
  | .rr => 2
  | .ri => 2

/-- The control-flow opcodes are the set CALL, RET, JMP, JEQ, JNE and nothing else, decided by identity (R69). -/
def Op.controlFlow : Op → Bool
  | .call | .ret | .jmp | .jeq | .jne => true
  | .hlt | .ldi | .prn | .add | .sub | .mul | .div | .mod | .cmp | .push | .pop => false

/-- The three operations bound only when `DISPATCH_ALU_EXT = true` (R67). -/
def Op.aluExt : Op → Bool
  | .sub | .div | .mod => true
  | .hlt | .ldi | .prn | .add | .mul | .cmp | .push | .pop | .call | .ret | .jmp | .jeq | .jne => false

/-- Every operation, in the order of spec/opcode_table.json. -/
def Op.all : List Op :=
  [.hlt, .ldi, .prn, .add, .sub, .mul, .div, .mod, .cmp, .push, .pop, .call, .ret, .jmp, .jeq, .jne]

/-- The opcode byte a parameter map gives an operation. -/
def OpcodeMap.byte (m : OpcodeMap) : Op → Byte
  | .hlt => m.hlt
  | .ldi => m.ldi
  | .prn => m.prn
  | .add => m.add
  | .sub => m.sub
  | .mul => m.mul
  | .div => m.div
  | .mod => m.mod
  | .cmp => m.cmp
  | .push => m.push
  | .pop => m.pop
  | .call => m.call
  | .ret => m.ret
  | .jmp => m.jmp
  | .jeq => m.jeq
  | .jne => m.jne

/-- The opcode bytes of R66 and R67 (decisions D1 and D12: general knowledge of the LS-8 teaching ISA, log entry 1). -/
def OpcodeMap.default : OpcodeMap where
  hlt  := 0b00000001
  ldi  := 0b10000010
  prn  := 0b01000111
  add  := 0b10100000
  sub  := 0b10100001
  mul  := 0b10100010
  div  := 0b10100011
  mod  := 0b10100100
  cmp  := 0b10100111
  push := 0b01000101
  pop  := 0b01000110
  call := 0b01010000
  ret  := 0b00010001
  jmp  := 0b01010100
  jeq  := 0b01010101
  jne  := 0b01010110

/-- The defaults of R4: `fault`, `clear_then_set`, `false`, and the opcode bytes of R66. -/
def defaultConfig : Config where
  illegalOpcodePolicy := .fault
  cmpFlagPolicy := .clearThenSet
  dispatchAluExt := false
  opcodes := OpcodeMap.default

/-- The field `N = IR[7:6]` of an opcode byte, its operand count (R61). -/
def operandField (ir : Byte) : Nat := ((ir >>> 6) &&& 0b11).toNat

/-- The instruction length `((IR >> 6) & 0b11) + 1`, 1 to 4 (R62, R83, 90_conflicts.md C2). -/
def opcodeLength (ir : Byte) : Nat := operandField ir + 1

/-- The constraint on the `OPC_*` parameters (R66): all distinct, and the top two bits of each equal the operand
count of its mnemonic. -/
def OpcodeMap.wf (m : OpcodeMap) : Bool :=
  (Op.all.all fun o => operandField (m.byte o) == o.format.operandCount) &&
  (Op.all.all fun o => Op.all.all fun p => m.byte o != m.byte p || o == p)

/-- Whether the dispatch table has an entry for the operation under this configuration (R66, R67, R93). -/
def Config.dispatches (c : Config) (o : Op) : Bool := c.dispatchAluExt || !o.aluExt

/-- The dispatch-table lookup, keyed by the whole byte (R68, R84). Where an illegal opcode map binds a byte twice, the
first in table order is found (log entry 11). -/
def Config.lookup (c : Config) (ir : Byte) : Option Op :=
  Op.all.find? fun o => c.dispatches o && c.opcodes.byte o == ir

/-- The instruction an operation makes of the two operand bytes; operands beyond its own are ignored (R65). -/
def Op.instr (o : Op) (opA opB : Byte) : Instr :=
  match o with
  | .hlt => .hlt
  | .ldi => .ldi opA opB
  | .prn => .prn opA
  | .add => .add opA opB
  | .sub => .sub opA opB
  | .mul => .mul opA opB
  | .div => .div opA opB
  | .mod => .mod opA opB
  | .cmp => .cmp opA opB
  | .push => .push opA
  | .pop => .pop opA
  | .call => .call opA
  | .ret => .ret
  | .jmp => .jmp opA
  | .jeq => .jeq opA
  | .jne => .jne opA

/-- Why a list of bytes is no instruction. -/
inductive DecodeError where
  /-- there is no opcode byte -/
  | noOpcode
  /-- the byte is not bound in the dispatch table (R70) -/
  | illegalOpcode (ir : Byte)
  /-- fewer operand bytes are left than the operation has -/
  | missingOperands (o : Op)
  deriving DecidableEq, Repr

/-- The operand bytes of an operation, taken off the bytes after its opcode, and what is left of those. -/
def takeOperands (o : Op) (bytes : List Byte) : Except DecodeError (Instr × List Byte) :=
  match o.format, bytes with
  | .z, rest => .ok (o.instr 0 0, rest)
  | .r, a :: rest => .ok (o.instr a 0, rest)
  | .rr, a :: b :: rest => .ok (o.instr a b, rest)
  | .ri, a :: b :: rest => .ok (o.instr a b, rest)
  | .r, [] => .error (.missingOperands o)
  | .rr, [] => .error (.missingOperands o)
  | .rr, [_] => .error (.missingOperands o)
  | .ri, [] => .error (.missingOperands o)
  | .ri, [_] => .error (.missingOperands o)

/-- The decoder: opcode byte first, then operand A, then operand B (R43, R60). -/
def decode (c : Config) (bytes : List Byte) : Except DecodeError (Instr × List Byte) :=
  match bytes with
  | [] => .error .noOpcode
  | ir :: rest =>
    match c.lookup ir with
    | none => .error (.illegalOpcode ir)
    | some o => takeOperands o rest

/-- The operation of an instruction. -/
def Instr.op : Instr → Op
  | .hlt => .hlt
  | .ldi _ _ => .ldi
  | .prn _ => .prn
  | .add _ _ => .add
  | .sub _ _ => .sub
  | .mul _ _ => .mul
  | .div _ _ => .div
  | .mod _ _ => .mod
  | .cmp _ _ => .cmp
  | .push _ => .push
  | .pop _ => .pop
  | .call _ => .call
  | .ret => .ret
  | .jmp _ => .jmp
  | .jeq _ => .jeq
  | .jne _ => .jne

/-- The operand bytes of an instruction, A before B (R60, R63). -/
def Instr.operands : Instr → List Byte
  | .hlt | .ret => []
  | .prn ra | .push ra | .pop ra | .call ra | .jmp ra | .jeq ra | .jne ra => [ra]
  | .ldi ra imm => [ra, imm]
  | .add ra rb | .sub ra rb | .mul ra rb | .div ra rb | .mod ra rb | .cmp ra rb => [ra, rb]

/-- The encoder: the bytes of an instruction in ascending address order (R60, R63, R66, R67). -/
def encode (c : Config) (i : Instr) : List Byte := c.opcodes.byte i.op :: i.operands

/-- The three bytes of a word numbered as spec/opcode_table.json numbers it: the first byte is bits 7..0, the
second bits 15..8, the third bits 23..16; every bit from `nbits` up is 0. -/
def tableBytes (nbits w : Nat) : List Byte :=
  let v := w % 2 ^ nbits
  [BitVec.ofNat 8 v, BitVec.ofNat 8 (v / 256), BitVec.ofNat 8 (v / 65536)]

/-- The configuration under which all 16 rows of spec/opcode_table.json are bound (log entry 7). -/
def tableConfig : Config := { defaultConfig with dispatchAluExt := true }

/-- What the decoder reads from an instruction whose bits are `w`, numbered as the opcode table numbers them. -/
def decodeTableWord (nbits w : Nat) : Option Instr :=
  match decode tableConfig (tableBytes nbits w) with
  | .ok (i, _) => some i
  | .error _ => none

end Sys2Proof
end

