-- ==== Sys2Proof/Machine/State.lean ====
section
/-! DEFINITION. The whole state of the core (10_state.md) as plain data, its value after reset (R35), and the
reasons a step of the interface can stop.

IR, operand A and operand B are transient within a cycle and are not state (R23). -/

namespace Sys2Proof.Machine

/-- The register file: eight 8-bit registers (R10); `r7` is the stack pointer SP (R12). -/
structure Regs where
  r0 : Byte
  r1 : Byte
  r2 : Byte
  r3 : Byte
  r4 : Byte
  r5 : Byte
  r6 : Byte
  r7 : Byte
  deriving DecidableEq, Repr

/-- The flags register FL: three independent bits, Less-than, Greater-than, Equal (R18). -/
structure Flags where
  l : Bool
  g : Bool
  e : Bool
  deriving DecidableEq, Repr

/-- The fault causes (R171); their codes are `Cause.code` in Machine/Ops.lean. -/
inductive Cause where
  /-- code 1: an unbound opcode byte under the policy `fault` -/
  | illegalOpcode
  /-- code 2: a memory address above 255, a register index above 7, or an advance of `pc` past 255 -/
  | outOfBoundsAddress
  /-- code 3: unreachable (R124): the ALU's operation type is closed (log entry 9) -/
  | unsupportedALUOperation
  /-- code 4: DIV or MOD by a register that holds 0 (R115) -/
  | divideByZero
  deriving DecidableEq, Repr

/-- The fault record (R26, R172): the cause, the address of the opcode byte of the faulting instruction, and the
9-bit `info`. -/
structure FaultRecord where
  cause   : Cause
  faultPc : Byte
  info    : BitVec 9
  deriving DecidableEq, Repr

/-- The status of the engine (R22): `FAULTED` carries the fault record, and the record exists in no other status. -/
inductive Status where
  | running
  | halted
  | faulted (record : FaultRecord)
  deriving DecidableEq, Repr

/-- The 256-byte memory (R24, R40) as a list of (address, byte) pairs in the canonical form `Memory.wf`
(Machine/Ops.lean): addresses rising, none above 255, no entry equal to what an unlisted address reads as. -/
abbrev Memory := List Host.Cell

/-- The state between two cycles (10_state.md). -/
structure State where
  /-- R0 to R7 (R10) -/
  regs   : Regs
  /-- the program counter (R15) -/
  pc     : Byte
  /-- FL (R18) -/
  flags  : Flags
  /-- the status, and with it the running flag and the fault record (R21, R22) -/
  status : Status
  /-- the memory, shared by code and data (R24, R40) -/
  mem    : Memory
  /-- the bytes PRN has emitted, oldest first (R25, R31) -/
  out    : List Byte
  /-- the configuration (R4); constant: no instruction and no fault writes it (log entry 2) -/
  cfg    : Config
  deriving DecidableEq, Repr

/-- Every register 0 (R35). -/
def Regs.zero : Regs := ⟨0, 0, 0, 0, 0, 0, 0, 0⟩

/-- The machine right after reset (R35, R200): memory 0 (nothing listed), registers 0 (R7 included), `pc` 0,
flags 0, running, no fault record, nothing emitted; the parameters at their defaults (R4). -/
def State.reset : State where
  regs   := Regs.zero
  pc     := 0
  flags  := ⟨false, false, false⟩
  status := .running
  mem    := []
  out    := []
  cfg    := defaultConfig

/-- The reasons a step stops without a next state: none. Every fault of the spec is an entry into the status
`FAULTED` (R172), which is a next state (log entry 3), and a cycle is a total function (R91). -/
inductive Fault
  deriving DecidableEq, Repr

/-- The reasons the model gives no next state. -/
inductive Refusal where
  /-- An instruction that has no meaning yet, by its mnemonic; raised by exec's arms alone, and by none of them
  now. Safe. -/
  | notModelled (mnemonic : String)
  /-- Raised by `launch` (Machine/Interfaces.lean), the loader's refusal of a program longer than 256 bytes (R32,
  decision D20); no step raises it. Safe: nothing runs. -/
  | programTooLong
  deriving DecidableEq, Repr

end Sys2Proof.Machine
end

