-- ==== Sys2Proof/Machine/Ops.lean ====
section
/-! DEFINITION. The named operations over the state: registers, flags, memory, the output, taking a fault, the
advance of `pc`, the fetch, and the illegal-opcode rule.

An operation that may raise takes what comes after it as a continuation, so that a meaning reads in the order of
the spec's pseudocode and a `raise` keeps exactly the effects of the statements before it (R6, R88). -/

namespace Sys2Proof.Machine

/-- What a meaning answers. -/
abbrev Result := Host.Outcome State Fault Refusal

/-! ### Registers (R10, R12) -/

def Regs.get (r : Regs) (i : RegIx) : Byte :=
  match i with
  | 0 => r.r0
  | 1 => r.r1
  | 2 => r.r2
  | 3 => r.r3
  | 4 => r.r4
  | 5 => r.r5
  | 6 => r.r6
  | 7 => r.r7

def Regs.set (r : Regs) (i : RegIx) (v : Byte) : Regs :=
  match i with
  | 0 => { r with r0 := v }
  | 1 => { r with r1 := v }
  | 2 => { r with r2 := v }
  | 3 => { r with r3 := v }
  | 4 => { r with r4 := v }
  | 5 => { r with r5 := v }
  | 6 => { r with r6 := v }
  | 7 => { r with r7 := v }

/-- `SP_INDEX` (R3, R12). -/
def spIx : RegIx := 7

def State.reg (s : State) (i : RegIx) : Byte := s.regs.get i

def State.setReg (s : State) (i : RegIx) (v : Byte) : State := { s with regs := s.regs.set i v }

/-- The stack pointer, a name for R7 (R12). -/
def State.sp (s : State) : Byte := s.reg spIx

def State.setSp (s : State) (v : Byte) : State := s.setReg spIx v

/-! ### The other parts of the state -/

def State.setPc (s : State) (a : Byte) : State := { s with pc := a }

def State.setFlags (s : State) (f : Flags) : State := { s with flags := f }

def State.setStatus (s : State) (t : Status) : State := { s with status := t }

def State.setMem (s : State) (m : Memory) : State := { s with mem := m }

/-- `Emit(v)`: the print interface appends one byte to `out` (R25, R31). -/
def State.emit (s : State) (v : Byte) : State := { s with out := s.out ++ [v] }

/-- The running flag is exactly `status = RUNNING` (R22). -/
def Status.isRunning : Status → Bool
  | .running => true
  | .halted => false
  | .faulted _ => false

def State.running (s : State) : Bool := s.status.isRunning

/-- FL as a 3-bit value: L is bit 2, G bit 1, E bit 0 (R19). -/
def Flags.toBits (f : Flags) : BitVec 3 :=
  BitVec.ofNat 3 (4 * f.l.toNat + 2 * f.g.toNat + f.e.toNat)

/-- The code of a cause (R171). -/
def Cause.code : Cause → BitVec 3
  | .illegalOpcode => 1
  | .outOfBoundsAddress => 2
  | .unsupportedALUOperation => 3
  | .divideByZero => 4

/-! ### Memory (20_memory.md) -/

/-- `MEM_SIZE` (R3). -/
def memSize : Nat := 256

/-- What an address that is not listed reads as: memory is zero-initialised (R24, R41). -/
def Memory.unlisted : Byte := 0

def Memory.read (m : Memory) (a : Nat) : Byte :=
  match m with
  | [] => Memory.unlisted
  | c :: rest => if c.1 = a then c.2 else Memory.read rest a

/-- The canonical form: addresses strictly rising, each below 256, no entry equal to the unlisted value. -/
def Memory.wf (m : Memory) : Bool :=
  match m with
  | [] => true
  | c :: rest =>
    decide (c.1 < memSize) && c.2 != Memory.unlisted && (rest.all fun d => decide (c.1 < d.1)) && Memory.wf rest

def Memory.erase (m : Memory) (a : Nat) : Memory := m.filter fun c => c.1 != a

def Memory.insert (m : Memory) (a : Nat) (v : Byte) : Memory :=
  match m with
  | [] => [(a, v)]
  | c :: rest => if a < c.1 then (a, v) :: c :: rest else c :: Memory.insert rest a v

/-- The memory with cell `a` holding `v` and every other cell as it was (R41). -/
def Memory.write (m : Memory) (a : Nat) (v : Byte) : Memory :=
  if v = Memory.unlisted then m.erase a else (m.erase a).insert a v

/-- The memory with the bytes stored at consecutive ascending addresses from `a` (R32, R43). -/
def Memory.writeBytes (m : Memory) (a : Nat) (bytes : List Byte) : Memory :=
  match bytes with
  | [] => m
  | b :: rest => Memory.writeBytes (m.write a b) (a + 1) rest

/-- The byte in a cell, as the state holds it. -/
def State.cell (s : State) (a : Nat) : Byte := s.mem.read a

/-! ### Taking a fault (R172) -/

/-- Fault entry: `status`, and with it the fault record, is all that changes; `fault_pc` is the `pc` of the
faulting instruction; `pc` is not redirected and nothing is saved anywhere (R172, R180). There is no return from
a fault (R181): only reset leaves `FAULTED` (R22). -/
def State.raised (s : State) (c : Cause) (info : Nat) : State :=
  s.setStatus (.faulted ⟨c, s.pc, BitVec.ofNat 9 info⟩)

/-- `raise C(info)`: the cycle ends here, in the state `FAULTED` (R6, R88, R172). -/
def raise (c : Cause) (info : Nat) (s : State) : Result := .next (s.raised c info)

/-! ### Memory accesses with the bounds check (R6, R45) -/

/-- `MemRead(a, 1)`. -/
def memRead (a : Nat) (s : State) (k : Byte → Result) : Result :=
  if a < memSize then k (s.mem.read a) else raise .outOfBoundsAddress a s

/-- `MemWrite(a, 1, v)`. -/
def memWrite (a : Nat) (v : Byte) (s : State) (k : State → Result) : Result :=
  if a < memSize then k (s.setMem (s.mem.write a v)) else raise .outOfBoundsAddress a s

/-! ### The cycle's own steps (40_cycle_and_dispatch.md) -/

/-- The engine's advance `pc <- pc + len`: the sum is formed as an integer and does not wrap (R17, R85). -/
def advance (len : Nat) (s : State) : Result :=
  if s.pc.toNat + len < memSize then .next (s.setPc (BitVec.ofNat 8 (s.pc.toNat + len)))
  else raise .outOfBoundsAddress (s.pc.toNat + len) s

/-- Steps 1 and 2: the opcode byte at `pc`, then operand A at `pc + 1` and operand B at `pc + 2`, whatever the
length of the instruction; the addresses are integers and are not wrapped (R81, R82). -/
def fetch (s : State) (k : Byte → Byte → Byte → Result) : Result :=
  memRead s.pc.toNat s fun ir =>
  memRead (s.pc.toNat + 1) s fun opA =>
  memRead (s.pc.toNat + 2) s fun opB =>
  k ir opA opB

/-- An opcode byte that is not bound: a fault, or nothing but the advance by the length of R62 (R86). -/
def illegalOpcode (ir : Byte) (s : State) : Result :=
  match s.cfg.illegalOpcodePolicy with
  | .fault => raise .illegalOpcode ir.toNat s
  | .skip => advance (opcodeLength ir) s

/-- Whether the byte is bound only when `DISPATCH_ALU_EXT = true` (R67). -/
def needsAluExt (c : Config) (ir : Byte) : Bool :=
  (Op.all.filter Op.aluExt).any fun o => c.opcodes.byte o == ir

/-- The state with the bytes of an instruction stored where the next cycle fetches (none past the end of memory),
and with `DISPATCH_ALU_EXT` true where the opcode byte is one that only then is bound (log entry 7). -/
def State.withFetchBytes (s : State) (bytes : List Byte) : State :=
  { s with
    mem := s.mem.writeBytes s.pc.toNat (bytes.take (memSize - s.pc.toNat))
    cfg := { s.cfg with dispatchAluExt := s.cfg.dispatchAluExt || needsAluExt s.cfg (bytes.headD 0) } }

end Sys2Proof.Machine
end

