-- ==== Sys2Proof/Machine/Operands.lean ====
section
/-! DEFINITION. The operand forms (R64): a register operand, whose index is checked when the register is accessed
(R13), and the immediate byte of LDI, which needs no operation. There are no other operand forms. -/

namespace Sys2Proof.Machine

/-- `x[i]` read: an index 0 to 7 selects the register; any other raises `OutOfBoundsAddress(i)` and reads
nothing (R6, R13). The index is the whole byte, not its low three bits. -/
def readReg (i : Byte) (s : State) (k : Byte → Result) : Result :=
  if h : i.toNat < 8 then k (s.reg ⟨i.toNat, h⟩) else raise .outOfBoundsAddress i.toNat s

/-- `x[i] <- v`, with the same check; nothing is written where it fails (R6, R13). -/
def writeReg (i : Byte) (v : Byte) (s : State) (k : State → Result) : Result :=
  if h : i.toNat < 8 then k (s.setReg ⟨i.toNat, h⟩ v) else raise .outOfBoundsAddress i.toNat s

end Sys2Proof.Machine
end

