-- ==== Sys2Proof/Machine/Alu.lean ====
section
/-! DEFINITION. The ALU as a pure function and the arithmetic instructions (42_alu.md). -/

namespace Sys2Proof.Machine

/-- The operations of the ALU (R110, R116), a closed type (R124, log entry 9). -/
inductive AluOp where
  | add | sub | mul | div | mod
  deriving DecidableEq, Repr

/-- `apply(operation, a, b)` (R111 to R116) on unsigned bytes: `+`, `-` and `*` keep the low 8 bits, which is the
reduction modulo 256, and `/` and `%` are the unsigned quotient and remainder; `none` where there is no result,
which is division or remainder by zero (R115). -/
def aluApply (op : AluOp) (a b : Byte) : Option Byte :=
  match op with
  | .add => some (a + b)
  | .sub => some (a - b)
  | .mul => some (a * b)
  | .div => if b = 0 then none else some (a / b)
  | .mod => if b = 0 then none else some (a % b)

/-- The common form of the arithmetic handlers (R123): register A is read, then register B, then the zero divisor
is tested, then the result is written to register A; then `pc <- pc + 3`. -/
def arith (op : AluOp) (ra rb : Byte) (s : State) : Result :=
  readReg ra s fun a =>
  readReg rb s fun b =>
  match aluApply op a b with
  | none => raise .divideByZero rb.toNat s
  | some v => writeReg ra v s fun s => advance 3 s

/-- R118. -/
def execAdd (ra rb : Byte) (s : State) : Result := arith .add ra rb s

/-- R119. -/
def execMul (ra rb : Byte) (s : State) : Result := arith .mul ra rb s

/-- R120. -/
def execSub (ra rb : Byte) (s : State) : Result := arith .sub ra rb s

/-- R121. -/
def execDiv (ra rb : Byte) (s : State) : Result := arith .div ra rb s

/-- R122. -/
def execMod (ra rb : Byte) (s : State) : Result := arith .mod ra rb s

end Sys2Proof.Machine
end

