-- ==== Sys2Proof/Machine/Flags.lean ====
section
/-! DEFINITION. The one flag computation of the machine, CMP's (R150, R151). No other instruction, and not the
ALU, writes a flag (R18). -/

namespace Sys2Proof.Machine

/-- The flags after comparing `a` with `b` as unsigned bytes, from the flags `f` before (R150, R151). -/
def compareFlags (p : CmpFlagPolicy) (a b : Byte) (f : Flags) : Flags :=
  match p with
  | .clearThenSet =>
    { l := decide (a.toNat < b.toNat), g := decide (a.toNat > b.toNat), e := decide (a.toNat = b.toNat) }
  | .setOnly =>
    { l := f.l || decide (a.toNat < b.toNat)
      g := f.g || decide (a.toNat > b.toNat)
      e := f.e || decide (a.toNat = b.toNat) }

end Sys2Proof.Machine
end

