-- ==== Sys2Proof/Machine/Branch.lean ====
section
/-! DEFINITION. CMP, JMP, JEQ, JNE (45_compare_and_branch.md). CMP is advanced by the engine; the branches are
control-flow opcodes and write `pc` on both paths. -/

namespace Sys2Proof.Machine

/-- R151. -/
def execCmp (ra rb : Byte) (s : State) : Result :=
  readReg ra s fun a =>
  readReg rb s fun b =>
  advance 3 (s.setFlags (compareFlags s.cfg.cmpFlagPolicy a b s.flags))

/-- `pc <- x[opA]` (R153 and the taken paths of R154 and R156). -/
def jumpTo (ra : Byte) (s : State) : Result :=
  readReg ra s fun target => .next (s.setPc target)

/-- R153. -/
def execJmp (ra : Byte) (s : State) : Result := jumpTo ra s

/-- R154: taken iff E is set; not taken, the register is neither read nor checked (decision D26) and the handler
advances `pc` itself by 2. -/
def execJeq (ra : Byte) (s : State) : Result :=
  if s.flags.e = true then jumpTo ra s else advance 2 s

/-- R156: taken iff E is clear. -/
def execJne (ra : Byte) (s : State) : Result :=
  if s.flags.e = false then jumpTo ra s else advance 2 s

end Sys2Proof.Machine
end

