-- ==== Sys2Proof/Machine/Stack.lean ====
section
/-! DEFINITION. PUSH and POP (43_stack.md), their statements in the written order (R6, decision D17). -/

namespace Sys2Proof.Machine

/-- R130: SP is decremented first; the operand register is read after that, so `PUSH R7` pushes the decremented
SP, and an index above 7 faults with SP already decremented. -/
def execPush (ra : Byte) (s : State) : Result :=
  let s := s.setSp (s.sp - 1)
  readReg ra s fun v =>
  memWrite s.sp.toNat v s fun s =>
  advance 2 s

/-- R132: the cell at the old SP is read and written to the register, then SP is incremented, so `POP R7` leaves
the popped byte plus 1 in R7, and an index above 7 faults with SP unchanged. -/
def execPop (ra : Byte) (s : State) : Result :=
  memRead s.sp.toNat s fun v =>
  writeReg ra v s fun s =>
  advance 2 (s.setSp (s.sp + 1))

end Sys2Proof.Machine
end

