-- ==== Sys2Proof/Machine/Subroutine.lean ====
section
/-! DEFINITION. CALL and RET (44_subroutine.md). Both are control-flow opcodes: the handler writes `pc` and the
engine does not advance it (R85). -/

namespace Sys2Proof.Machine

/-- R140: SP is decremented, the return address `pc + 2` is stored at the new SP, and only then is the target
register read, so `CALL R7` jumps to the decremented SP. `pc + 2` fits a byte in every cycle that got past the
fetch (R82, log entry 5). -/
def execCall (ra : Byte) (s : State) : Result :=
  let s := s.setSp (s.sp - 1)
  memWrite s.sp.toNat (s.pc + 2) s fun s =>
  readReg ra s fun target =>
  .next (s.setPc target)

/-- R142: the cell at the old SP becomes `pc`, then SP is incremented. -/
def execRet (s : State) : Result :=
  memRead s.sp.toNat s fun target =>
  .next ((s.setPc target).setSp (s.sp + 1))

end Sys2Proof.Machine
end

