-- ==== Sys2Proof/Machine/System.lean ====
section
/-! DEFINITION. HLT, LDI, PRN (41_system_data_io.md). None is a control-flow opcode: each ends in the engine's
advance (R85). -/

namespace Sys2Proof.Machine

/-- R100: `running <- false`, then `pc <- pc + 1`. -/
def execHlt (s : State) : Result := advance 1 (s.setStatus .halted)

/-- R102: `x[opA] <- opB`, then `pc <- pc + 3`. -/
def execLdi (ra imm : Byte) (s : State) : Result :=
  writeReg ra imm s fun s => advance 3 s

/-- R104: `Emit(x[opA])`, then `pc <- pc + 2`. -/
def execPrn (ra : Byte) (s : State) : Result :=
  readReg ra s fun v => advance 2 (s.emit v)

end Sys2Proof.Machine
end

