-- ==== Sys2Proof/Machine/Step.lean ====
section
/-! DEFINITION. One cycle (R80, R89): fetch three bytes, decode, run the instruction or apply the illegal-opcode
rule. The length of R83 is part of the decoder (R62) and of the meanings' advance (log entry 8). -/

namespace Sys2Proof.Machine

/-- One call of `step()` (R89, R92). A cycle is performed only while the engine runs (R21, R80); `HALTED` and
`FAULTED` are absorbing and no state changes in them (R22, log entry 4). -/
def step (s : State) : Host.Outcome State Fault Refusal :=
  match s.status with
  | .running =>
    fetch s fun ir opA opB =>
    match decode s.cfg [ir, opA, opB] with
    | .ok (i, _) => exec i s
    | .error _ => illegalOpcode ir s
  | .halted => .next s
  | .faulted _ => .next s

/-- The state with the instruction of the opcode table's word `w` stored at `pc` (log entries 6 and 7). -/
def State.withFetchWord (s : State) (nbits w : Nat) : State := s.withFetchBytes (tableBytes nbits w)

end Sys2Proof.Machine
end

