-- ==== Sys2Proof/Machine/Interfaces.lean ====
section
/-! DEFINITION. The abstract interfaces of the block (R30): load (R32), status (R33) and the optional trace (R34,
R192). The print interface is the field `out` of State (R25, R31). They are what the surroundings see and do; no
instruction uses them. -/

namespace Sys2Proof.Machine

/-- Reset and load (R32, R201, R202): the state at the first cycle of a run of the program `b`. The loader writes
`b` from address 0 (`LOAD_BASE`, R3) upward; it refuses a sequence longer than the memory, and nothing runs
(decision D20). -/
def launch (b : List Byte) : Result :=
  if b.length ≤ memSize then .next (State.reset.setMem (State.reset.mem.writeBytes 0 b))
  else .refused .programTooLong

/-- The fault record of a status, where it has one (R22, R172). -/
def Status.record : Status → Option FaultRecord
  | .running => none
  | .halted => none
  | .faulted r => some r

/-- The cause code the status interface shows; 0 means no fault (R33, R171). -/
def State.causeCode (s : State) : BitVec 3 :=
  match s.status.record with
  | none => 0
  | some r => r.cause.code

/-- One line of the trace as data (R34, R192, decision D29): `pc`, the cells at `pc`, `pc + 1`, `pc + 2`, and R0
to R7; a cell past the end of memory is `none` (log entry 10). -/
structure TraceLine where
  pc    : Byte
  cells : List (Option Byte)
  regs  : Regs
  deriving DecidableEq, Repr

/-- A cell for the trace. -/
def State.cell? (s : State) (a : Nat) : Option Byte := if a < memSize then some (s.mem.read a) else none

/-- What the trace shows of a state; it reads state and changes none (R192). -/
def State.trace (s : State) : TraceLine where
  pc    := s.pc
  cells := [s.cell? s.pc.toNat, s.cell? (s.pc.toNat + 1), s.cell? (s.pc.toNat + 2)]
  regs  := s.regs

end Sys2Proof.Machine
end

