-- ==== Sys2Proof/Safety.lean ====
section
/-! DEFINITION. What counts as a good state, in the terms the statements use: the memory is in canonical form, and
a stopped engine tells the truth about why it stopped. -/

namespace Sys2Proof.Machine

/-- The operand byte `i` names the register `a` (R13). -/
abbrev Names (i : Byte) (a : RegIx) : Prop := i.toNat = a.val

/-- What a fault record in a state says is so of that state (R171, R172): `fault_pc` is the frozen `pc`;
`IllegalOpcode` carries the unbound byte at `pc`, under the policy `fault`; `OutOfBoundsAddress` carries a register
index 8 to 255 of an instruction that was fetched, or one of the addresses 256 and 257, which only an instruction at
252 or above reaches, 257 only by a skipped byte of length 4 at 253; `UnsupportedALUOperation` never occurs;
`DivideByZero` carries the index of a register that holds 0, and occurs only with `DISPATCH_ALU_EXT = true`. -/
def FaultRecord.truthful (r : FaultRecord) (s : State) : Prop :=
  r.faultPc = s.pc ∧
  match r.cause with
  | .illegalOpcode =>
    s.pc.toNat ≤ 253 ∧ s.cfg.illegalOpcodePolicy = .fault ∧
    s.cfg.lookup (s.cell s.pc.toNat) = none ∧ r.info.toNat = (s.cell s.pc.toNat).toNat
  | .outOfBoundsAddress =>
    (8 ≤ r.info.toNat ∧ r.info.toNat ≤ 255 ∧ s.pc.toNat ≤ 253) ∨
    (r.info.toNat = 256 ∧ 252 ≤ s.pc.toNat) ∨
    (r.info.toNat = 257 ∧ s.pc.toNat = 253 ∧ s.cfg.illegalOpcodePolicy = .skip)
  | .unsupportedALUOperation => False
  | .divideByZero =>
    s.pc.toNat ≤ 253 ∧ s.cfg.dispatchAluExt = true ∧ ∃ a : RegIx, r.info.toNat = a.val ∧ s.reg a = 0

/-- What a status says is so of the state: a halted engine stands one past a HLT byte (R87), and a fault record is
truthful. -/
def Status.truthful (t : Status) (s : State) : Prop :=
  match t with
  | .running => True
  | .halted => 1 ≤ s.pc.toNat ∧ s.pc.toNat ≤ 254 ∧ s.cell (s.pc.toNat - 1) = s.cfg.opcodes.hlt
  | .faulted r => r.truthful s

/-- The invariant of the machine. -/
def State.Inv (s : State) : Prop := Memory.wf s.mem = true ∧ s.status.truthful s

/-- The instruction the next cycle runs: what the decoder reads from the three bytes at `pc`, for an engine that
runs and whose three bytes lie in memory (R81, R82, R84). -/
def State.current? (s : State) : Option Instr :=
  if s.status = .running ∧ s.pc.toNat + 2 < memSize then
    match decode s.cfg [s.cell s.pc.toNat, s.cell (s.pc.toNat + 1), s.cell (s.pc.toNat + 2)] with
    | .ok (i, _) => some i
    | .error _ => none
  else none

end Sys2Proof.Machine
end

