-- ==== Sys2Proof/Certificates/Slice0/Obligations.lean ====
section
/-! DEFINITION. The statements about the machine, one `def Obligations.<Name> : Prop` each, listed in
OBLIGATIONS.json.

`exec` is the instruction's handler together with the engine's advance (R84, R85); `step` is the whole cycle (R89).
`Names ra a` says that the operand byte `ra` names register `a` (R13). A fault is a next state whose status is
`faulted` with its record (R172, log entry 3). The instruction rules hold at the addresses a cycle can get past the
fetch at, 0 to 253 (R82). Where a rule of the spec bears the mark of a decision (D<n> of 92_eei_decisions.md), the
docstring names it. -/

open Sys2Proof Sys2Proof.Machine

/-! ### Encoding -/

/-- The dispatch table binds exactly these bytes, 13 by default and 16 with `DISPATCH_ALU_EXT = true` (R66, R67).
The byte values are the spec's decisions D1 and D12 (general knowledge of the LS-8 teaching ISA; log entry 1). -/
def Obligations.OpcodeTableBindsExactly : Prop :=
  (∀ (ir : Byte) (o : Op), defaultConfig.lookup ir = some o ↔
    (ir, o) ∈ [((0x01 : Byte), Op.hlt), (0x82, .ldi), (0x47, .prn), (0xA0, .add), (0xA2, .mul), (0x45, .push),
      (0x46, .pop), (0x50, .call), (0x11, .ret), (0xA7, .cmp), (0x54, .jmp), (0x55, .jeq), (0x56, .jne)]) ∧
  (∀ (ir : Byte) (o : Op), tableConfig.lookup ir = some o ↔
    defaultConfig.lookup ir = some o ∨ (ir, o) ∈ [((0xA1 : Byte), Op.sub), (0xA3, .div), (0xA4, .mod)])

/-- Words written out from the encodings of R66 and R67 decode to their instructions; bytes after an instruction's
own operands are left (R65). The byte values are decision D1 (log entry 1). -/
def Obligations.SpecWordsDecodeToTheirInstructions : Prop :=
  decode defaultConfig [0b00000001, 0xFF, 0xFF] = .ok (.hlt, [0xFF, 0xFF]) ∧
  decode defaultConfig [0b10000010, 0x07, 0xF4] = .ok (.ldi 7 244, []) ∧
  decode defaultConfig [0b10100010, 0x00, 0x01] = .ok (.mul 0 1, []) ∧
  decode defaultConfig [0b01000101, 0x03, 0x99] = .ok (.push 3, [0x99]) ∧
  decode defaultConfig [0b01010000, 0x01, 0x00] = .ok (.call 1, [0x00]) ∧
  decode defaultConfig [0b01010101, 0x63, 0x00] = .ok (.jeq 99, [0x00]) ∧
  decode defaultConfig [0b10100001, 0x00, 0x01] = .error (.illegalOpcode 0xA1) ∧
  decode tableConfig [0b10100001, 0x00, 0x01] = .ok (.sub 0 1, [])

/-- Decoding the encoding of an instruction gives it back with every operand byte, for all instructions that the
configuration dispatches, register indices above 7 included, under every legal opcode map, whatever bytes follow. -/
def Obligations.EncodedInstructionsDecodeBack : Prop :=
  ∀ (c : Config) (i : Instr) (rest : List Byte),
    c.opcodes.wf = true → c.dispatches i.op = true → decode c (encode c i ++ rest) = .ok (i, rest)

/-- Whatever the decoder accepts is the encoding of the instruction it answers: each word has one meaning, and the
whole opcode byte counts (R68, decision D2). -/
def Obligations.DecodedBytesAreTheEncoding : Prop :=
  ∀ (c : Config) (bytes rest : List Byte) (i : Instr),
    decode c bytes = .ok (i, rest) → bytes = encode c i ++ rest ∧ c.dispatches i.op = true

/-- The length formula: `N + 1` with `N` the top two bits, 1 to 4 (R62, R83; 4 for top bits `11` is decision D27),
and under a legal opcode map it is the number of bytes the decoder consumes. -/
def Obligations.LengthFormulaCountsConsumedBytes : Prop :=
  (∀ ir : Byte, opcodeLength ir = ir.toNat / 64 + 1 ∧ 1 ≤ opcodeLength ir ∧ opcodeLength ir ≤ 4) ∧
  (∀ (c : Config) (ir : Byte) (more rest : List Byte) (i : Instr),
    c.opcodes.wf = true → decode c (ir :: more) = .ok (i, rest) →
      (ir :: more).length = opcodeLength ir + rest.length ∧ opcodeLength ir ≤ 3)

/-! ### The cycle -/

/-- A step runs the decoded instruction: with the engine running and the three bytes at `pc` inside memory, if they
decode to `i`, the step is `exec i` at that same state (R80, R81, R82, R84). Nothing is added around `exec`: the
engine's advance is part of it. -/
def Obligations.StepRunsDecodedInstruction : Prop :=
  ∀ (s : State) (i : Instr) (rest : List Byte),
    s.status = .running → s.pc.toNat ≤ 253 →
    decode s.cfg [s.cell s.pc.toNat, s.cell (s.pc.toNat + 1), s.cell (s.pc.toNat + 2)] = .ok (i, rest) →
      step s = exec i s

/-- The model's own interface (log entries 6 and 7): a word of the opcode table stored where the step fetches is
run by the very next step, in every running state at 253 or below with the default opcode bytes. -/
def Obligations.FetchWordRunsDecodedInstruction : Prop :=
  ∀ (s : State) (nbits w : Nat) (i : Instr),
    s.status = .running → s.pc.toNat ≤ 253 → s.cfg.opcodes = OpcodeMap.default → decodeTableWord nbits w = some i →
      step (s.withFetchWord nbits w) = exec i (s.withFetchWord nbits w)

/-- No instruction whose opcode byte is at 254 or 255 executes, whatever the bytes are: the cycle faults at the
operand fetch with the address 256, before dispatch, and nothing else changes (R82, R176; decision D5). -/
def Obligations.FetchPastEndOfMemoryFaults : Prop :=
  ∀ s : State, s.status = .running → 254 ≤ s.pc.toNat →
    step s = .next { s with status := .faulted ⟨.outOfBoundsAddress, s.pc, 256⟩ }

/-- An unbound opcode byte: under `fault`, `IllegalOpcode(IR)` and nothing else changes; under `skip`, nothing but
the advance by the length of the byte, or the fault of that advance (R86, R173; decisions D3, D6, D27). -/
def Obligations.UnboundOpcodeFaultsOrSkips : Prop :=
  ∀ s : State, s.status = .running → s.pc.toNat ≤ 253 → s.cfg.lookup (s.cell s.pc.toNat) = none →
    (s.cfg.illegalOpcodePolicy = .fault →
      step s = .next { s with
        status := .faulted ⟨.illegalOpcode, s.pc, BitVec.ofNat 9 (s.cell s.pc.toNat).toNat⟩ }) ∧
    (s.cfg.illegalOpcodePolicy = .skip → s.pc.toNat + opcodeLength (s.cell s.pc.toNat) ≤ 255 →
      step s = .next { s with pc := BitVec.ofNat 8 (s.pc.toNat + opcodeLength (s.cell s.pc.toNat)) }) ∧
    (s.cfg.illegalOpcodePolicy = .skip → 255 < s.pc.toNat + opcodeLength (s.cell s.pc.toNat) →
      step s = .next { s with
        status := .faulted ⟨.outOfBoundsAddress, s.pc,
          BitVec.ofNat 9 (s.pc.toNat + opcodeLength (s.cell s.pc.toNat))⟩ })

/-! ### HLT, LDI, PRN -/

/-- HLT clears the running flag and the engine advances `pc` by 1; nothing else changes (R100, R87). -/
def Obligations.HltHaltsAndAdvances : Prop :=
  (∀ x y : Byte, decode defaultConfig [0b00000001, x, y] = .ok (.hlt, [x, y])) ∧
  ∀ s : State, s.pc.toNat ≤ 253 → exec .hlt s = .next { s with status := .halted, pc := s.pc + 1 }

/-- LDI writes the immediate to the register; a bad index faults with nothing written; at 253 the register is
written and the advance faults (R102). -/
def Obligations.LdiLoadsImmediate : Prop :=
  (∀ ra imm : Byte, decode defaultConfig [0b10000010, ra, imm] = .ok (.ldi ra imm, [])) ∧
  (∀ (s : State) (ra imm : Byte) (a : RegIx), Names ra a → s.pc.toNat ≤ 252 →
    exec (.ldi ra imm) s = .next { s with regs := s.regs.set a imm, pc := s.pc + 3 }) ∧
  (∀ (s : State) (ra imm : Byte) (a : RegIx), Names ra a → s.pc.toNat = 253 →
    exec (.ldi ra imm) s = .next { s with
      regs := s.regs.set a imm, status := .faulted ⟨.outOfBoundsAddress, s.pc, 256⟩ }) ∧
  (∀ (s : State) (ra imm : Byte), 8 ≤ ra.toNat →
    exec (.ldi ra imm) s = .next { s with
      status := .faulted ⟨.outOfBoundsAddress, s.pc, BitVec.ofNat 9 ra.toNat⟩ })

/-- PRN emits the register's byte and changes nothing else but `pc`; a bad index faults and nothing is emitted; LDI
then PRN of the same register emits the immediate (R104). -/
def Obligations.PrnEmitsRegister : Prop :=
  (∀ ra x : Byte, decode defaultConfig [0b01000111, ra, x] = .ok (.prn ra, [x])) ∧
  (∀ (s : State) (ra : Byte) (a : RegIx), Names ra a → s.pc.toNat ≤ 253 →
    exec (.prn ra) s = .next { s with out := s.out ++ [s.regs.get a], pc := s.pc + 2 }) ∧
  (∀ (s : State) (ra : Byte), 8 ≤ ra.toNat →
    exec (.prn ra) s = .next { s with
      status := .faulted ⟨.outOfBoundsAddress, s.pc, BitVec.ofNat 9 ra.toNat⟩ }) ∧
  (∀ (s : State) (ra v : Byte) (a : RegIx), Names ra a → s.pc.toNat ≤ 250 →
    ∃ t u : State, exec (.ldi ra v) s = .next t ∧ exec (.prn ra) t = .next u ∧ u.out = s.out ++ [v])

/-! ### The arithmetic instructions -/

/-- The ALU against integer arithmetic: sums, differences and products modulo 256, floor quotient and remainder of
unsigned bytes, no result for a zero divisor (R111 to R116; decisions D7, D9, D10, D11). -/
def Obligations.AluMatchesIntegerArithmetic : Prop :=
  ∀ a b : Byte,
    (∃ r, aluApply .add a b = some r ∧ (r.toNat : Int) = ((a.toNat : Int) + b.toNat) % 256) ∧
    (∃ r, aluApply .sub a b = some r ∧ (r.toNat : Int) = ((a.toNat : Int) - b.toNat) % 256) ∧
    (∃ r, aluApply .mul a b = some r ∧ (r.toNat : Int) = ((a.toNat : Int) * b.toNat) % 256) ∧
    (b.toNat ≠ 0 → ∃ q r, aluApply .div a b = some q ∧ aluApply .mod a b = some r ∧
      a.toNat = b.toNat * q.toNat + r.toNat ∧ r.toNat < b.toNat) ∧
    (b.toNat = 0 → aluApply .div a b = none ∧ aluApply .mod a b = none)

/-- ADD (R118): register A gets the sum modulo 256; index A is checked before index B; at 253 the register is
written and the advance faults. -/
def Obligations.AddWritesSum : Prop :=
  (∀ ra rb : Byte, decode defaultConfig [0b10100000, ra, rb] = .ok (.add ra rb, [])) ∧
  (∀ (s : State) (ra rb : Byte) (a b : RegIx), Names ra a → Names rb b → s.pc.toNat ≤ 252 →
    exec (.add ra rb) s = .next { s with
      regs := s.regs.set a (BitVec.ofNat 8 (((s.regs.get a).toNat + (s.regs.get b).toNat) % 256))
      pc := s.pc + 3 }) ∧
  (∀ (s : State) (ra rb : Byte) (a b : RegIx), Names ra a → Names rb b → s.pc.toNat = 253 →
    exec (.add ra rb) s = .next { s with
      regs := s.regs.set a (BitVec.ofNat 8 (((s.regs.get a).toNat + (s.regs.get b).toNat) % 256))
      status := .faulted ⟨.outOfBoundsAddress, s.pc, 256⟩ }) ∧
  (∀ (s : State) (ra rb : Byte), 8 ≤ ra.toNat →
    exec (.add ra rb) s = .next { s with
      status := .faulted ⟨.outOfBoundsAddress, s.pc, BitVec.ofNat 9 ra.toNat⟩ }) ∧
  (∀ (s : State) (ra rb : Byte) (a : RegIx), Names ra a → 8 ≤ rb.toNat →
    exec (.add ra rb) s = .next { s with
      status := .faulted ⟨.outOfBoundsAddress, s.pc, BitVec.ofNat 9 rb.toNat⟩ })

/-- MUL (R119): register A gets the low byte of the product; faults as ADD. -/
def Obligations.MulWritesLowProduct : Prop :=
  (∀ ra rb : Byte, decode defaultConfig [0b10100010, ra, rb] = .ok (.mul ra rb, [])) ∧
  (∀ (s : State) (ra rb : Byte) (a b : RegIx), Names ra a → Names rb b → s.pc.toNat ≤ 252 →
    exec (.mul ra rb) s = .next { s with
      regs := s.regs.set a (BitVec.ofNat 8 (((s.regs.get a).toNat * (s.regs.get b).toNat) % 256))
      pc := s.pc + 3 }) ∧
  (∀ (s : State) (ra rb : Byte) (a b : RegIx), Names ra a → Names rb b → s.pc.toNat = 253 →
    exec (.mul ra rb) s = .next { s with
      regs := s.regs.set a (BitVec.ofNat 8 (((s.regs.get a).toNat * (s.regs.get b).toNat) % 256))
      status := .faulted ⟨.outOfBoundsAddress, s.pc, 256⟩ }) ∧
  (∀ (s : State) (ra rb : Byte), 8 ≤ ra.toNat →
    exec (.mul ra rb) s = .next { s with
      status := .faulted ⟨.outOfBoundsAddress, s.pc, BitVec.ofNat 9 ra.toNat⟩ }) ∧
  (∀ (s : State) (ra rb : Byte) (a : RegIx), Names ra a → 8 ≤ rb.toNat →
    exec (.mul ra rb) s = .next { s with
      status := .faulted ⟨.outOfBoundsAddress, s.pc, BitVec.ofNat 9 rb.toNat⟩ })

/-- SUB (R120; that it is an instruction at all, with `DISPATCH_ALU_EXT = true`, is decision D12): register A gets
the difference modulo 256; faults as ADD. -/
def Obligations.SubWritesDifference : Prop :=
  (∀ ra rb : Byte, decode tableConfig [0b10100001, ra, rb] = .ok (.sub ra rb, [])) ∧
  (∀ (s : State) (ra rb : Byte) (a b : RegIx), Names ra a → Names rb b → s.pc.toNat ≤ 252 →
    exec (.sub ra rb) s = .next { s with
      regs := s.regs.set a (BitVec.ofNat 8 ((256 + (s.regs.get a).toNat - (s.regs.get b).toNat) % 256))
      pc := s.pc + 3 }) ∧
  (∀ (s : State) (ra rb : Byte) (a b : RegIx), Names ra a → Names rb b → s.pc.toNat = 253 →
    exec (.sub ra rb) s = .next { s with
      regs := s.regs.set a (BitVec.ofNat 8 ((256 + (s.regs.get a).toNat - (s.regs.get b).toNat) % 256))
      status := .faulted ⟨.outOfBoundsAddress, s.pc, 256⟩ }) ∧
  (∀ (s : State) (ra rb : Byte), 8 ≤ ra.toNat →
    exec (.sub ra rb) s = .next { s with
      status := .faulted ⟨.outOfBoundsAddress, s.pc, BitVec.ofNat 9 ra.toNat⟩ }) ∧
  (∀ (s : State) (ra rb : Byte) (a : RegIx), Names ra a → 8 ≤ rb.toNat →
    exec (.sub ra rb) s = .next { s with
      status := .faulted ⟨.outOfBoundsAddress, s.pc, BitVec.ofNat 9 rb.toNat⟩ })

/-- DIV (R121; decisions D10 and D12): register A gets the floor quotient; a divisor register that holds 0 faults
with nothing written, after both indices are checked (R115, R175, R176). -/
def Obligations.DivWritesQuotient : Prop :=
  (∀ ra rb : Byte, decode tableConfig [0b10100011, ra, rb] = .ok (.div ra rb, [])) ∧
  (∀ (s : State) (ra rb : Byte) (a b : RegIx), Names ra a → Names rb b → s.regs.get b ≠ 0 → s.pc.toNat ≤ 252 →
    exec (.div ra rb) s = .next { s with
      regs := s.regs.set a (BitVec.ofNat 8 ((s.regs.get a).toNat / (s.regs.get b).toNat))
      pc := s.pc + 3 }) ∧
  (∀ (s : State) (ra rb : Byte) (a b : RegIx), Names ra a → Names rb b → s.regs.get b ≠ 0 → s.pc.toNat = 253 →
    exec (.div ra rb) s = .next { s with
      regs := s.regs.set a (BitVec.ofNat 8 ((s.regs.get a).toNat / (s.regs.get b).toNat))
      status := .faulted ⟨.outOfBoundsAddress, s.pc, 256⟩ }) ∧
  (∀ (s : State) (ra rb : Byte) (a b : RegIx), Names ra a → Names rb b → s.regs.get b = 0 →
    exec (.div ra rb) s = .next { s with
      status := .faulted ⟨.divideByZero, s.pc, BitVec.ofNat 9 rb.toNat⟩ }) ∧
  (∀ (s : State) (ra rb : Byte), 8 ≤ ra.toNat →
    exec (.div ra rb) s = .next { s with
      status := .faulted ⟨.outOfBoundsAddress, s.pc, BitVec.ofNat 9 ra.toNat⟩ }) ∧
  (∀ (s : State) (ra rb : Byte) (a : RegIx), Names ra a → 8 ≤ rb.toNat →
    exec (.div ra rb) s = .next { s with
      status := .faulted ⟨.outOfBoundsAddress, s.pc, BitVec.ofNat 9 rb.toNat⟩ })

/-- MOD (R122; decisions D10, D11 and D12): register A gets the unsigned remainder; faults as DIV. -/
def Obligations.ModWritesRemainder : Prop :=
  (∀ ra rb : Byte, decode tableConfig [0b10100100, ra, rb] = .ok (.mod ra rb, [])) ∧
  (∀ (s : State) (ra rb : Byte) (a b : RegIx), Names ra a → Names rb b → s.regs.get b ≠ 0 → s.pc.toNat ≤ 252 →
    exec (.mod ra rb) s = .next { s with
      regs := s.regs.set a (BitVec.ofNat 8 ((s.regs.get a).toNat % (s.regs.get b).toNat))
      pc := s.pc + 3 }) ∧
  (∀ (s : State) (ra rb : Byte) (a b : RegIx), Names ra a → Names rb b → s.regs.get b ≠ 0 → s.pc.toNat = 253 →
    exec (.mod ra rb) s = .next { s with
      regs := s.regs.set a (BitVec.ofNat 8 ((s.regs.get a).toNat % (s.regs.get b).toNat))
      status := .faulted ⟨.outOfBoundsAddress, s.pc, 256⟩ }) ∧
  (∀ (s : State) (ra rb : Byte) (a b : RegIx), Names ra a → Names rb b → s.regs.get b = 0 →
    exec (.mod ra rb) s = .next { s with
      status := .faulted ⟨.divideByZero, s.pc, BitVec.ofNat 9 rb.toNat⟩ }) ∧
  (∀ (s : State) (ra rb : Byte), 8 ≤ ra.toNat →
    exec (.mod ra rb) s = .next { s with
      status := .faulted ⟨.outOfBoundsAddress, s.pc, BitVec.ofNat 9 ra.toNat⟩ }) ∧
  (∀ (s : State) (ra rb : Byte) (a : RegIx), Names ra a → 8 ≤ rb.toNat →
    exec (.mod ra rb) s = .next { s with
      status := .faulted ⟨.outOfBoundsAddress, s.pc, BitVec.ofNat 9 rb.toNat⟩ })

/-! ### The stack and the subroutine instructions -/

/-- PUSH (R130): SP is decremented modulo 256 and the register's byte is stored at the new SP; `PUSH R7` stores the
decremented SP (decision D17); a bad index faults with SP decremented and memory as it was. -/
def Obligations.PushStoresBelowStackPointer : Prop :=
  (∀ ra x : Byte, decode defaultConfig [0b01000101, ra, x] = .ok (.push ra, [x])) ∧
  (∀ (s : State) (ra : Byte) (a : RegIx), Names ra a → s.pc.toNat ≤ 253 →
    exec (.push ra) s = .next { s with
      regs := s.regs.set 7 (s.regs.get 7 - 1)
      mem := s.mem.write (s.regs.get 7 - 1).toNat (if a = 7 then s.regs.get 7 - 1 else s.regs.get a)
      pc := s.pc + 2 }) ∧
  (∀ (s : State) (ra : Byte), 8 ≤ ra.toNat →
    exec (.push ra) s = .next { s with
      regs := s.regs.set 7 (s.regs.get 7 - 1)
      status := .faulted ⟨.outOfBoundsAddress, s.pc, BitVec.ofNat 9 ra.toNat⟩ })

/-- POP (R132): the register gets the byte at the old SP, then SP is incremented modulo 256; `POP R7` leaves the
popped byte plus 1 (decision D17); a bad index faults with nothing changed. -/
def Obligations.PopLoadsAndIncrements : Prop :=
  (∀ ra x : Byte, decode defaultConfig [0b01000110, ra, x] = .ok (.pop ra, [x])) ∧
  (∀ (s : State) (ra : Byte) (a : RegIx), Names ra a → a ≠ 7 → s.pc.toNat ≤ 253 →
    exec (.pop ra) s = .next { s with
      regs := (s.regs.set a (s.cell (s.regs.get 7).toNat)).set 7 (s.regs.get 7 + 1)
      pc := s.pc + 2 }) ∧
  (∀ (s : State) (ra : Byte), Names ra 7 → s.pc.toNat ≤ 253 →
    exec (.pop ra) s = .next { s with
      regs := s.regs.set 7 (s.cell (s.regs.get 7).toNat + 1)
      pc := s.pc + 2 }) ∧
  (∀ (s : State) (ra : Byte), 8 ≤ ra.toNat →
    exec (.pop ra) s = .next { s with
      status := .faulted ⟨.outOfBoundsAddress, s.pc, BitVec.ofNat 9 ra.toNat⟩ })

/-- CALL (R140): SP is decremented, the return address `pc + 2` is stored at the new SP, and `pc` becomes the
register; `CALL R7` goes to the decremented SP (decision D17); a bad index faults after both, `pc` unchanged. -/
def Obligations.CallStoresReturnAddress : Prop :=
  (∀ ra x : Byte, decode defaultConfig [0b01010000, ra, x] = .ok (.call ra, [x])) ∧
  (∀ (s : State) (ra : Byte) (a : RegIx), Names ra a → s.pc.toNat ≤ 253 →
    exec (.call ra) s = .next { s with
      regs := s.regs.set 7 (s.regs.get 7 - 1)
      mem := s.mem.write (s.regs.get 7 - 1).toNat (BitVec.ofNat 8 (s.pc.toNat + 2))
      pc := if a = 7 then s.regs.get 7 - 1 else s.regs.get a }) ∧
  (∀ (s : State) (ra : Byte), 8 ≤ ra.toNat → s.pc.toNat ≤ 253 →
    exec (.call ra) s = .next { s with
      regs := s.regs.set 7 (s.regs.get 7 - 1)
      mem := s.mem.write (s.regs.get 7 - 1).toNat (BitVec.ofNat 8 (s.pc.toNat + 2))
      status := .faulted ⟨.outOfBoundsAddress, s.pc, BitVec.ofNat 9 ra.toNat⟩ })

/-- RET (R142): `pc` becomes the byte at the old SP, SP is incremented modulo 256, nothing else changes, in every
state; it never faults. -/
def Obligations.RetPopsProgramCounter : Prop :=
  (∀ x y : Byte, decode defaultConfig [0b00010001, x, y] = .ok (.ret, [x, y])) ∧
  ∀ s : State, exec .ret s = .next { s with
    pc := s.cell (s.regs.get 7).toNat, regs := s.regs.set 7 (s.regs.get 7 + 1) }

/-- PUSH then POP of the same register other than R7 restores the registers and SP, from every SP and across the
wrap; the next instruction address is four on and the pushed byte stays below SP (R134, from R130 and R132). -/
def Obligations.PushThenPopRestores : Prop :=
  ∀ (s : State) (ra : Byte) (a : RegIx), Names ra a → a ≠ 7 → s.pc.toNat ≤ 251 →
    ∃ t u : State, exec (.push ra) s = .next t ∧ exec (.pop ra) t = .next u ∧
      u = { s with mem := s.mem.write (s.regs.get 7 - 1).toNat (s.regs.get a), pc := s.pc + 4 }

/-- CALL, then RET in any state that has SP and the byte SP addresses as CALL left them, comes back to the
instruction after the CALL with SP as before it (R144, from R140 and R142). -/
def Obligations.CallThenRetReturns : Prop :=
  ∀ (s : State) (ra : Byte) (a : RegIx), Names ra a → s.pc.toNat ≤ 253 →
    ∃ t : State, exec (.call ra) s = .next t ∧
      ∀ u : State, u.sp = t.sp → u.cell t.sp.toNat = t.cell t.sp.toNat →
        ∃ v : State, exec .ret u = .next v ∧ v.pc.toNat = s.pc.toNat + 2 ∧ v.sp = s.sp

/-! ### CMP and the branches -/

/-- CMP (R151) compares unsigned bytes (R150, decision D22) and writes the flags by the policy (decision D4):
`clear_then_set` writes all three, `set_only` sets one and keeps the others. -/
def Obligations.CmpSetsFlagsByPolicy : Prop :=
  (∀ ra rb : Byte, decode defaultConfig [0b10100111, ra, rb] = .ok (.cmp ra rb, [])) ∧
  (∀ (s : State) (ra rb : Byte) (a b : RegIx), Names ra a → Names rb b →
    ∃ f : Flags,
      (s.cfg.cmpFlagPolicy = .clearThenSet →
        f = ⟨decide ((s.regs.get a).toNat < (s.regs.get b).toNat),
          decide ((s.regs.get b).toNat < (s.regs.get a).toNat), decide (s.regs.get a = s.regs.get b)⟩) ∧
      (s.cfg.cmpFlagPolicy = .setOnly →
        f = if (s.regs.get a).toNat < (s.regs.get b).toNat then { s.flags with l := true }
          else if (s.regs.get b).toNat < (s.regs.get a).toNat then { s.flags with g := true }
          else { s.flags with e := true }) ∧
      (s.pc.toNat ≤ 252 → exec (.cmp ra rb) s = .next { s with flags := f, pc := s.pc + 3 }) ∧
      (s.pc.toNat = 253 → exec (.cmp ra rb) s = .next { s with
        flags := f, status := .faulted ⟨.outOfBoundsAddress, s.pc, 256⟩ })) ∧
  (∀ (s : State) (ra rb : Byte), 8 ≤ ra.toNat →
    exec (.cmp ra rb) s = .next { s with
      status := .faulted ⟨.outOfBoundsAddress, s.pc, BitVec.ofNat 9 ra.toNat⟩ }) ∧
  (∀ (s : State) (ra rb : Byte) (a : RegIx), Names ra a → 8 ≤ rb.toNat →
    exec (.cmp ra rb) s = .next { s with
      status := .faulted ⟨.outOfBoundsAddress, s.pc, BitVec.ofNat 9 rb.toNat⟩ })

/-- JMP (R153): `pc` becomes the register, any address, and nothing else changes; a JMP to its own address leaves
the state as it was; a target of 254 or 255 faults at the next operand fetch; a bad index faults with `pc`
unchanged. -/
def Obligations.JmpGoesToRegister : Prop :=
  (∀ ra x : Byte, decode defaultConfig [0b01010100, ra, x] = .ok (.jmp ra, [x])) ∧
  (∀ (s : State) (ra : Byte) (a : RegIx), Names ra a →
    exec (.jmp ra) s = .next { s with pc := s.regs.get a } ∧
    (s.regs.get a = s.pc → exec (.jmp ra) s = .next s) ∧
    (s.status = .running → 254 ≤ (s.regs.get a).toNat →
      ∃ t : State, exec (.jmp ra) s = .next t ∧
        step t = .next { t with status := .faulted ⟨.outOfBoundsAddress, t.pc, 256⟩ })) ∧
  (∀ (s : State) (ra : Byte), 8 ≤ ra.toNat →
    exec (.jmp ra) s = .next { s with
      status := .faulted ⟨.outOfBoundsAddress, s.pc, BitVec.ofNat 9 ra.toNat⟩ })

/-- JEQ (R154): taken iff E is set; not taken it advances by 2, whatever its operand byte (decision D26). -/
def Obligations.JeqJumpsWhenEqualSet : Prop :=
  (∀ ra x : Byte, decode defaultConfig [0b01010101, ra, x] = .ok (.jeq ra, [x])) ∧
  (∀ (s : State) (ra : Byte) (a : RegIx), s.flags.e = true → Names ra a →
    exec (.jeq ra) s = .next { s with pc := s.regs.get a }) ∧
  (∀ (s : State) (ra : Byte), s.flags.e = true → 8 ≤ ra.toNat →
    exec (.jeq ra) s = .next { s with
      status := .faulted ⟨.outOfBoundsAddress, s.pc, BitVec.ofNat 9 ra.toNat⟩ }) ∧
  (∀ (s : State) (ra : Byte), s.flags.e = false → s.pc.toNat ≤ 253 →
    exec (.jeq ra) s = .next { s with pc := s.pc + 2 })

/-- JNE (R156): taken iff E is clear; not taken it advances by 2, whatever its operand byte (decision D26). -/
def Obligations.JneJumpsWhenEqualClear : Prop :=
  (∀ ra x : Byte, decode defaultConfig [0b01010110, ra, x] = .ok (.jne ra, [x])) ∧
  (∀ (s : State) (ra : Byte) (a : RegIx), s.flags.e = false → Names ra a →
    exec (.jne ra) s = .next { s with pc := s.regs.get a }) ∧
  (∀ (s : State) (ra : Byte), s.flags.e = false → 8 ≤ ra.toNat →
    exec (.jne ra) s = .next { s with
      status := .faulted ⟨.outOfBoundsAddress, s.pc, BitVec.ofNat 9 ra.toNat⟩ }) ∧
  (∀ (s : State) (ra : Byte), s.flags.e = true → s.pc.toNat ≤ 253 →
    exec (.jne ra) s = .next { s with pc := s.pc + 2 })

/-- In every state exactly one of JEQ and JNE would go to the register and the other falls through (R157). -/
def Obligations.ExactlyOneOfJeqJneJumps : Prop :=
  ∀ (s : State) (ra : Byte) (a : RegIx), Names ra a → s.pc.toNat ≤ 253 →
    (exec (.jeq ra) s = .next { s with pc := s.regs.get a } ∧ exec (.jne ra) s = .next { s with pc := s.pc + 2 } ∧
      s.flags.e = true) ∨
    (exec (.jeq ra) s = .next { s with pc := s.pc + 2 } ∧ exec (.jne ra) s = .next { s with pc := s.regs.get a } ∧
      s.flags.e = false)

/-- Under `clear_then_set` a CMP that does not fault leaves exactly one flag set, from every prior state (R150,
R151; decision D4). -/
def Obligations.CmpLeavesExactlyOneFlag : Prop :=
  ∀ (s t : State) (ra rb : Byte), s.cfg.cmpFlagPolicy = .clearThenSet → ra.toNat < 8 → rb.toNat < 8 →
    exec (.cmp ra rb) s = .next t → t.flags.l.toNat + t.flags.g.toNat + t.flags.e.toNat = 1

/-- Under `set_only` no step ever clears a flag (R151, R211 item 8; decision D4). -/
def Obligations.FlagsAccumulateUnderSetOnly : Prop :=
  ∀ s t : State, s.cfg.cmpFlagPolicy = .setOnly → step s = .next t →
    (s.flags.l = true → t.flags.l = true) ∧ (s.flags.g = true → t.flags.g = true) ∧
    (s.flags.e = true → t.flags.e = true)

/-! ### Frames -/

/-- LDI, ADD, SUB, MUL, DIV and MOD change no register but the one operand A names, no flag, no byte of memory, no
output and no parameter; the status changes only into a fault (R14, R18, R42, R102, R123). -/
def Obligations.RegisterWritingFrame : Prop :=
  ∀ (s t : State) (i : Instr) (ra x : Byte),
    (i = .ldi ra x ∨ i = .add ra x ∨ i = .sub ra x ∨ i = .mul ra x ∨ i = .div ra x ∨ i = .mod ra x) →
    exec i s = .next t →
      (∀ j : RegIx, ¬ Names ra j → t.reg j = s.reg j) ∧ t.flags = s.flags ∧ (∀ a : Nat, t.cell a = s.cell a) ∧
      t.out = s.out ∧ t.cfg = s.cfg ∧ (t.status = s.status ∨ ∃ r, t.status = .faulted r)

/-- HLT, PRN, CMP, JMP, JEQ and JNE change no register, no byte of memory and no parameter; only CMP changes a
flag, only PRN the output, and only HLT the status otherwise than into a fault (R14, R18, R42). -/
def Obligations.RegisterPreservingFrame : Prop :=
  ∀ (s t : State) (i : Instr) (ra rb : Byte),
    (i = .hlt ∨ i = .prn ra ∨ i = .cmp ra rb ∨ i = .jmp ra ∨ i = .jeq ra ∨ i = .jne ra) →
    exec i s = .next t →
      (∀ j : RegIx, t.reg j = s.reg j) ∧ (∀ a : Nat, t.cell a = s.cell a) ∧ t.cfg = s.cfg ∧
      (i ≠ .cmp ra rb → t.flags = s.flags) ∧ (i ≠ .prn ra → t.out = s.out) ∧
      (i ≠ .hlt → t.status = s.status ∨ ∃ r, t.status = .faulted r)

/-- PUSH and CALL change no register but SP, no flag, no output and no parameter, and no byte of memory but the one
at the decremented SP; a PUSH with a bad index changes no byte at all; the status changes only into a fault (R14,
R18, R42, R130, R140). -/
def Obligations.StoringFrame : Prop :=
  ∀ (s t : State) (i : Instr) (ra : Byte), (i = .push ra ∨ i = .call ra) → exec i s = .next t →
    (∀ j : RegIx, j ≠ 7 → t.reg j = s.reg j) ∧ t.flags = s.flags ∧ t.out = s.out ∧ t.cfg = s.cfg ∧
    (t.status = s.status ∨ ∃ r, t.status = .faulted r) ∧
    (∀ a : Nat, a = (s.sp - 1).toNat → ∀ b : Nat, b ≠ a → t.cell b = s.cell b) ∧
    (i = .push ra → 8 ≤ ra.toNat → ∀ b : Nat, t.cell b = s.cell b)

/-- POP changes no register but SP and the one its operand names, RET no register but SP; neither changes a flag, a
byte of memory, the output or a parameter; RET does not change the status and POP only into a fault (R14, R18, R42,
R132, R142; 90_conflicts.md C10). -/
def Obligations.PopRetFrame : Prop :=
  (∀ (s t : State) (ra : Byte), exec (.pop ra) s = .next t →
    (∀ j : RegIx, j ≠ 7 → ¬ Names ra j → t.reg j = s.reg j) ∧ t.flags = s.flags ∧
    (∀ a : Nat, t.cell a = s.cell a) ∧ t.out = s.out ∧ t.cfg = s.cfg ∧
    (t.status = s.status ∨ ∃ r, t.status = .faulted r)) ∧
  (∀ s t : State, exec .ret s = .next t →
    (∀ j : RegIx, j ≠ 7 → t.reg j = s.reg j) ∧ t.flags = s.flags ∧ (∀ a : Nat, t.cell a = s.cell a) ∧
    t.out = s.out ∧ t.cfg = s.cfg ∧ t.status = s.status)

/-! ### Faults -/

/-- Fault entry (R172, decision D15): `raise` writes the status and with it the record, `fault_pc` from `pc`, and
nothing else; the codes of the causes (R171), and code 0 exactly where there is no fault. -/
def Obligations.FaultEntryAndCauseCodes : Prop :=
  (∀ (c : Cause) (n : Nat) (s : State),
    raise c n s = .next { s with status := .faulted ⟨c, s.pc, BitVec.ofNat 9 n⟩ }) ∧
  Cause.illegalOpcode.code = 1 ∧ Cause.outOfBoundsAddress.code = 2 ∧ Cause.unsupportedALUOperation.code = 3 ∧
  Cause.divideByZero.code = 4 ∧
  (∀ s : State, s.causeCode = 0 ↔ ∀ r, s.status ≠ .faulted r)

/-- Precision (R177, from R172 and R176): a cycle that faults leaves everything but the status as it was, and in
particular `pc` and the output, except that PUSH with a bad index has decremented SP, CALL with a bad index has also
written the return address, and a three-byte instruction at 253 has written its register or flags. -/
def Obligations.FaultingCycleIsPrecise : Prop :=
  ∀ (s t : State) (r : FaultRecord), s.status = .running → step s = .next t → t.status = .faulted r →
    r.faultPc = s.pc ∧
    (t = { s with status := .faulted r } ∨
    (∃ ra : Byte, s.current? = some (.push ra) ∧ 8 ≤ ra.toNat ∧
      t = { s with regs := s.regs.set 7 (s.sp - 1), status := .faulted r }) ∨
    (∃ ra : Byte, s.current? = some (.call ra) ∧ 8 ≤ ra.toNat ∧
      t = { s with
        regs := s.regs.set 7 (s.sp - 1)
        mem := s.mem.write (s.sp - 1).toNat (s.pc + 2)
        status := .faulted r }) ∨
    (∃ i : Instr, s.current? = some i ∧ i.operands.length = 2 ∧ s.pc.toNat = 253 ∧
      r.cause = .outOfBoundsAddress ∧ r.info = 256 ∧
      t = { s with regs := t.regs, flags := t.flags, status := .faulted r }))

/-! ### Rules about the whole machine -/

/-- Flags (R18): a step changes a flag only by running CMP; of the other instructions only JEQ and JNE depend on a
flag, and only on E: with the flags replaced, everything else of the next state is the same. -/
def Obligations.FlagsWrittenByCmpReadByJeqJne : Prop :=
  (∀ s t : State, step s = .next t → t.flags ≠ s.flags → ∃ ra rb : Byte, s.current? = some (.cmp ra rb)) ∧
  (∀ (s : State) (i : Instr) (f : Flags),
    (f.e = s.flags.e ∨ ((∀ ra, i ≠ .jeq ra) ∧ (∀ ra, i ≠ .jne ra))) →
    ∃ t u : State, exec i s = .next t ∧ exec i { s with flags := f } = .next u ∧ u = { t with flags := u.flags })

/-- A step changes a byte of memory only by running PUSH or CALL, and only the byte at the decremented SP (R24,
R42; 90_conflicts.md C10). -/
def Obligations.MemoryChangesOnlyAtTheNewStackTop : Prop :=
  ∀ (s t : State) (a : Nat), step s = .next t → t.cell a ≠ s.cell a →
    a = (s.sp - 1).toNat ∧ ∃ ra : Byte, s.current? = some (.push ra) ∨ s.current? = some (.call ra)

/-- A step adds to the output only by running PRN, and then exactly the byte of the register it names (R31, R104,
R106). -/
def Obligations.OutputGrowsOnlyByPrn : Prop :=
  ∀ s t : State, step s = .next t → t.out ≠ s.out →
    ∃ (ra : Byte) (a : RegIx), s.current? = some (.prn ra) ∧ Names ra a ∧ t.out = s.out ++ [s.reg a]

/-- A step changes a register only by running an instruction whose operand A names it and is written, or, for SP,
a stack or subroutine instruction (R12, R14). -/
def Obligations.RegistersChangeOnlyWhereNamed : Prop :=
  ∀ (s t : State) (j : RegIx), step s = .next t → t.reg j ≠ s.reg j →
    ∃ i : Instr, s.current? = some i ∧
      ((∃ ra x : Byte, Names ra j ∧ (i = .ldi ra x ∨ i = .add ra x ∨ i = .sub ra x ∨ i = .mul ra x ∨
          i = .div ra x ∨ i = .mod ra x ∨ i = .pop ra)) ∨
       (j = 7 ∧ ((∃ ra : Byte, i = .push ra ∨ i = .pop ra ∨ i = .call ra) ∨ i = .ret)))

/-- `HALTED` is reached only by HLT (R22, R100). -/
def Obligations.HaltedOnlyByHlt : Prop :=
  ∀ s t : State, s.status = .running → step s = .next t → t.status = .halted →
    s.current? = some .hlt ∧ t = { s with status := .halted, pc := s.pc + 1 }

/-- The engine's advance (R85, R17): after an instruction that is not a control-flow opcode and does not fault,
`pc` has moved on by the length of the fetched opcode byte, whatever the instruction wrote to memory; after a fault
`pc` is unchanged (R88). -/
def Obligations.NonControlFlowAdvancesByLength : Prop :=
  ∀ (s t : State) (i : Instr), s.cfg.opcodes.wf = true → s.current? = some i → i.op.controlFlow = false →
    step s = .next t →
      (t.pc.toNat = s.pc.toNat + opcodeLength (s.cell s.pc.toNat) ∧ ∀ r, t.status ≠ .faulted r) ∨
      (t.pc = s.pc ∧ ∃ r, t.status = .faulted r)

/-- No step changes a parameter (R4; the configuration is held in State, log entry 2). -/
def Obligations.ConfigurationIsConstant : Prop :=
  ∀ s t : State, step s = .next t → t.cfg = s.cfg

/-- The cycle is a total function (R91): every step answers a next state; from a running state it is running,
halted or faulted by that step, and `pc` is unchanged if it faulted (R88). -/
def Obligations.StepAlwaysAnswersNext : Prop :=
  ∀ s : State, ∃ t : State, step s = .next t ∧ (∀ r, t.status = .faulted r → t.pc = s.pc)

/-- `HALTED` and `FAULTED` are absorbing (R22, decision D25): no number of steps changes the state. That a step of
a stopped engine answers that same state is the model's choice (log entry 4). -/
def Obligations.StoppedEngineIsFrozen : Prop :=
  ∀ (n : Nat) (s : State), s.status ≠ .running → Sys2Proof.core.run n s = .next s

/-- The invariant holds at reset: memory is in canonical form and the status is truthful. -/
def Obligations.InvariantHoldsAtReset : Prop := State.reset.Inv

/-- Every step keeps the invariant, from every state that meets it: memory stays in canonical form; a halted engine
stands one past a HLT byte (R87); and a fault record says what is so of the state it stopped in (R171, R172, R176):
`fault_pc` is `pc`, an illegal opcode is the unbound byte there, an address or index out of bounds is one that the
rules allow, a zero divisor is a register that holds 0. -/
def Obligations.InvariantKeptByStep : Prop :=
  ∀ s t : State, s.Inv → step s = .next t → t.Inv

/-- Two memories in canonical form that read alike at every address are the same list (the model's representation
of R24 and R41). -/
def Obligations.CanonicalMemoriesReadingAlikeAreEqual : Prop :=
  ∀ m n : Memory, Memory.wf m = true → Memory.wf n = true → (∀ a : Nat, m.read a = n.read a) → m = n

/-- A store is seen by the very next fetch (R53): a running PUSH whose new SP is the address of the next
instruction makes the pushed byte the next opcode. -/
def Obligations.StoreIsSeenByTheNextFetch : Prop :=
  ∀ (s : State) (ra : Byte) (a : RegIx) (o : Op),
    s.current? = some (.push ra) → Names ra a → a ≠ 7 → s.pc.toNat ≤ 251 → s.sp - 1 = s.pc + 2 →
    s.cfg.lookup (s.reg a) = some o →
      ∃ t : State, step s = .next t ∧
        t.current? = some (o.instr (s.cell (s.pc.toNat + 3)) (s.cell (s.pc.toNat + 4)))

/-! ### Reset, load and running off the end -/

/-- The state after reset (R35, R200; the flags are decision D13, the parameters' defaults D3, D4, D12). -/
def Obligations.ResetValues : Prop :=
  (∀ j : RegIx, State.reset.reg j = 0) ∧ State.reset.pc = 0 ∧ State.reset.flags = ⟨false, false, false⟩ ∧
  State.reset.running = true ∧ State.reset.status.record = none ∧ (∀ a : Nat, State.reset.cell a = 0) ∧
  State.reset.out = [] ∧ State.reset.cfg.illegalOpcodePolicy = .fault ∧
  State.reset.cfg.cmpFlagPolicy = .clearThenSet ∧ State.reset.cfg.dispatchAluExt = false

/-- FL as a 3-bit value: L is bit 2, G bit 1, E bit 0 (R19, decision D14). -/
def Obligations.FlagsLayout : Prop :=
  ∀ f : Flags, f.toBits.getLsbD 2 = f.l ∧ f.toBits.getLsbD 1 = f.g ∧ f.toBits.getLsbD 0 = f.e

/-- The trace shows `pc`, the three cells a cycle at `pc` fetches, and the eight registers (R34, R192; decision
D29), wherever those cells exist. -/
def Obligations.TraceShowsTheFetchedCells : Prop :=
  ∀ s : State, s.pc.toNat ≤ 253 →
    s.trace.pc = s.pc ∧ s.trace.regs = s.regs ∧
    s.trace.cells = [some (s.cell s.pc.toNat), some (s.cell (s.pc.toNat + 1)), some (s.cell (s.pc.toNat + 2))]

/-- The launch state (R32, R202; decision D20): the program's bytes from address 0, zeros after them, everything
else as reset leaves it; a program of more than 256 bytes is refused. -/
def Obligations.LaunchPlacesProgram : Prop :=
  (∀ b : List Byte, b.length ≤ 256 → ∃ s : State, launch b = .next s ∧
    (∀ (k : Nat) (h : k < b.length), s.cell k = b[k]) ∧ (∀ k : Nat, b.length ≤ k → s.cell k = 0) ∧
    s = { State.reset with mem := s.mem } ∧ s.Inv) ∧
  (∀ b : List Byte, 256 < b.length → launch b = .refused .programTooLong)

/-- Running into memory the loader did not fill (R208, R71, R173): where byte 0 is unbound, the default policy
faults at once; under `skip`, with zeros from `pc` to the end of memory, `pc` slides one byte a cycle to 254 and the
operand fetch there faults with the address 256. -/
def Obligations.UnloadedMemoryFaultsOrSlides : Prop :=
  (∀ s : State, s.status = .running → s.cfg.lookup 0 = none → s.cfg.illegalOpcodePolicy = .fault →
    s.pc.toNat ≤ 253 → s.cell s.pc.toNat = 0 →
      step s = .next { s with status := .faulted ⟨.illegalOpcode, s.pc, 0⟩ }) ∧
  (∀ s : State, s.status = .running → s.cfg.lookup 0 = none → s.cfg.illegalOpcodePolicy = .skip →
    s.pc.toNat ≤ 254 → (∀ a : Nat, s.pc.toNat ≤ a → s.cell a = 0) →
      Sys2Proof.core.run (255 - s.pc.toNat) s =
        .next { s with pc := 254, status := .faulted ⟨.outOfBoundsAddress, 254, 256⟩ })
end

