-- ==== Sys2Proof/Laws/Decode.lean ====
section
/-! SUPPORT. What the lookup and the decoder answer, once each. -/

namespace Sys2Proof

theorem Op.mem_all (o : Op) : o ∈ Op.all := by
  cases o <;> decide

/-- A byte the lookup binds is the opcode byte of an operation that is dispatched. -/
theorem Config.lookup_some {c : Config} {ir : Byte} {o : Op} (h : c.lookup ir = some o) :
    c.dispatches o = true ∧ c.opcodes.byte o = ir := by
  simpa using List.find?_some h

/-- A legal opcode map gives two operations the same byte only if they are the same. -/
theorem OpcodeMap.byte_injective {m : OpcodeMap} (hm : m.wf = true) {o p : Op} (h : m.byte o = m.byte p) : o = p := by
  have h2 := (Bool.and_eq_true _ _ ▸ hm : _ ∧ _).2
  have h3 := List.all_eq_true.1 (List.all_eq_true.1 h2 o (Op.mem_all o)) p (Op.mem_all p)
  simpa [h] using h3

/-- The top two bits of an opcode byte of a legal map are the operand count (R66). -/
theorem OpcodeMap.operandField_byte {m : OpcodeMap} (hm : m.wf = true) (o : Op) :
    operandField (m.byte o) = o.format.operandCount := by
  have h1 := (Bool.and_eq_true _ _ ▸ hm : _ ∧ _).1
  simpa using List.all_eq_true.1 h1 o (Op.mem_all o)

/-- The lookup finds a dispatched operation by its byte, for a legal opcode map. -/
theorem Config.lookup_byte {c : Config} (hm : c.opcodes.wf = true) {o : Op} (hd : c.dispatches o = true) :
    c.lookup (c.opcodes.byte o) = some o := by
  rcases hl : c.lookup (c.opcodes.byte o) with _ | p
  · have := List.find?_eq_none.1 hl o (Op.mem_all o)
    simp [hd] at this
  · rw [OpcodeMap.byte_injective hm (Config.lookup_some hl).2]

theorem OpcodeMap.default_wf : OpcodeMap.default.wf = true := by decide

/-- The operands of an instruction are as many as its format says (R63). -/
theorem Instr.operands_length (i : Instr) : i.operands.length = i.op.format.operandCount := by
  cases i <;> rfl

theorem Op.op_instr (o : Op) (a b : Byte) : (o.instr a b).op = o := by
  cases o <;> rfl

/-- The engine hands the decoder three bytes, so the operands are never missing: it answers the instruction that
the bound operation makes of the two operand bytes. -/
theorem takeOperands_three (o : Op) (a b : Byte) :
    ∃ rest, takeOperands o [a, b] = .ok (o.instr a b, rest) := by
  cases o <;> exact ⟨_, rfl⟩

theorem decode_three_some {c : Config} {ir : Byte} {o : Op} (h : c.lookup ir = some o) (a b : Byte) :
    ∃ rest, decode c [ir, a, b] = .ok (o.instr a b, rest) := by
  simpa [decode, h] using takeOperands_three o a b

theorem decode_three_none {c : Config} {ir : Byte} (h : c.lookup ir = none) (a b : Byte) :
    decode c [ir, a, b] = .error (.illegalOpcode ir) := by
  simp [decode, h]

/-- What the decoder answers on three bytes, once: the instruction of the bound operation, or the illegal opcode. -/
theorem decode_three_ok {c : Config} {ir a b : Byte} {i : Instr} {rest : List Byte}
    (h : decode c [ir, a, b] = .ok (i, rest)) : c.lookup ir = some i.op ∧ i = i.op.instr a b := by
  rcases hl : c.lookup ir with _ | o
  · rw [decode_three_none hl] at h
    cases h
  · obtain ⟨r, hr⟩ := decode_three_some hl a b
    rw [hr] at h
    cases h
    simp [Op.op_instr]

end Sys2Proof
end

