-- ==== Sys2Proof/Laws/Memory.lean ====
section
/-! SUPPORT. The laws of memory (R41): a read after a write, the canonical form is kept, and two canonical memories
that read alike are the same list. -/

namespace Sys2Proof.Machine

@[simp] theorem Memory.read_nil (a : Nat) : Memory.read [] a = Memory.unlisted := rfl

theorem Memory.read_cons (c : Host.Cell) (m : Memory) (a : Nat) :
    Memory.read (c :: m) a = if c.1 = a then c.2 else Memory.read m a := rfl

theorem Memory.read_erase (m : Memory) (a b : Nat) :
    (m.erase a).read b = if b = a then Memory.unlisted else m.read b := by
  induction m with
  | nil => simp [Memory.erase]
  | cons c m ih =>
    unfold Memory.erase at ih ⊢
    by_cases hc : c.1 = a
    · simp only [List.filter_cons, hc, bne_self_eq_false, Bool.false_eq_true, if_false, ih, Memory.read_cons]
      split <;> simp_all [eq_comm]
    · simp only [List.filter_cons, bne_iff_ne, ne_eq, hc, not_false_eq_true, if_true, ih, Memory.read_cons]
      split <;> simp_all

theorem Memory.read_insert (m : Memory) (a b : Nat) (v : Byte) (h : ∀ c ∈ m, c.1 ≠ a) :
    (m.insert a v).read b = if b = a then v else m.read b := by
  induction m with
  | nil => simp [Memory.insert, Memory.read_cons, eq_comm]
  | cons c m ih =>
    have hm := ih fun d hd => h d (List.mem_cons_of_mem c hd)
    have hc := h c List.mem_cons_self
    unfold Memory.insert
    split
    · simp only [Memory.read_cons, eq_comm]
    · simp only [Memory.read_cons, hm]
      split <;> simp_all

theorem Memory.mem_erase {m : Memory} {a : Nat} {c : Host.Cell} (h : c ∈ m.erase a) : c ∈ m ∧ c.1 ≠ a := by
  simpa [Memory.erase] using h

/-- A read after a write: the value written at that address, what was there elsewhere (R41). -/
theorem Memory.read_write (m : Memory) (a b : Nat) (v : Byte) :
    (m.write a v).read b = if b = a then v else m.read b := by
  unfold Memory.write
  split
  · rename_i hv
    rw [Memory.read_erase, hv]
  · rw [Memory.read_insert _ _ _ _ fun c hc => (Memory.mem_erase hc).2, Memory.read_erase]
    split <;> simp

@[simp] theorem Memory.read_write_same (m : Memory) (a : Nat) (v : Byte) : (m.write a v).read a = v := by
  simp [Memory.read_write]

theorem Memory.read_write_other (m : Memory) {a b : Nat} (v : Byte) (h : b ≠ a) :
    (m.write a v).read b = m.read b := by
  simp [Memory.read_write, h]

@[simp] theorem Memory.wf_nil : Memory.wf [] = true := rfl

theorem Memory.wf_cons (c : Host.Cell) (m : Memory) :
    Memory.wf (c :: m) = true ↔
      c.1 < memSize ∧ c.2 ≠ Memory.unlisted ∧ (∀ d ∈ m, c.1 < d.1) ∧ Memory.wf m = true := by
  simp [Memory.wf, and_assoc]

theorem Memory.wf_erase {m : Memory} (a : Nat) (h : m.wf = true) : (m.erase a).wf = true := by
  induction m with
  | nil => rfl
  | cons c m ih =>
    rw [Memory.wf_cons] at h
    have hm := ih h.2.2.2
    unfold Memory.erase at hm ⊢
    rw [List.filter_cons]
    split
    · rw [Memory.wf_cons]
      exact ⟨h.1, h.2.1, fun d hd => h.2.2.1 d (List.mem_filter.1 hd).1, hm⟩
    · exact hm

theorem Memory.mem_insert {m : Memory} {a : Nat} {v : Byte} {d : Host.Cell} (h : d ∈ m.insert a v) :
    d = (a, v) ∨ d ∈ m := by
  induction m with
  | nil => simpa [Memory.insert] using h
  | cons c m ih =>
    unfold Memory.insert at h
    split at h
    · simpa using h
    · rcases List.mem_cons.1 h with rfl | h
      · simp
      · rcases ih h with h | h <;> simp [h]

theorem Memory.wf_insert {m : Memory} {a : Nat} {v : Byte} (hm : m.wf = true) (ha : a < memSize)
    (hv : v ≠ Memory.unlisted) (hfree : ∀ c ∈ m, c.1 ≠ a) : (m.insert a v).wf = true := by
  induction m with
  | nil => simp [Memory.insert, Memory.wf_cons, ha, hv]
  | cons c m ih =>
    have hc := hfree c List.mem_cons_self
    have hw := (Memory.wf_cons c m).1 hm
    unfold Memory.insert
    split
    · rename_i hlt
      rw [Memory.wf_cons]
      refine ⟨ha, hv, fun d hd => ?_, hm⟩
      rcases List.mem_cons.1 hd with rfl | hd
      · exact hlt
      · exact lt_trans hlt (hw.2.2.1 d hd)
    · rename_i hlt
      rw [Memory.wf_cons]
      refine ⟨hw.1, hw.2.1, fun d hd => ?_, ih hw.2.2.2 fun d hd => hfree d (List.mem_cons_of_mem c hd)⟩
      rcases Memory.mem_insert hd with rfl | hd
      · show c.1 < a
        omega
      · exact hw.2.2.1 d hd

/-- A write inside the memory keeps the canonical form. -/
theorem Memory.wf_write {m : Memory} {a : Nat} (v : Byte) (hm : m.wf = true) (ha : a < memSize) :
    (m.write a v).wf = true := by
  unfold Memory.write
  split
  · exact Memory.wf_erase a hm
  · rename_i hv
    exact Memory.wf_insert (Memory.wf_erase a hm) ha hv fun c hc => (Memory.mem_erase hc).2

/-- Storing consecutive bytes that all lie inside the memory keeps the canonical form. -/
theorem Memory.wf_writeBytes {m : Memory} {a : Nat} {bytes : List Byte} (hm : m.wf = true)
    (ha : a + bytes.length ≤ memSize) : (m.writeBytes a bytes).wf = true := by
  induction bytes generalizing m a with
  | nil => exact hm
  | cons b rest ih =>
    rw [List.length_cons] at ha
    exact ih (Memory.wf_write b hm (by omega)) (by omega)

/-- Reading after storing consecutive bytes: the stored byte inside them, what was there outside. -/
theorem Memory.read_writeBytes (m : Memory) (a b : Nat) (bytes : List Byte) :
    (m.writeBytes a bytes).read b =
      if h : a ≤ b ∧ b - a < bytes.length then bytes[b - a]'h.2 else m.read b := by
  induction bytes generalizing m a with
  | nil => simp [Memory.writeBytes]
  | cons x rest ih =>
    unfold Memory.writeBytes
    rw [ih, Memory.read_write]
    by_cases hb : b = a
    · subst hb
      simp
    · by_cases hin : a + 1 ≤ b ∧ b - (a + 1) < rest.length
      · have e : b - a = b - (a + 1) + 1 := by omega
        have hin' : a ≤ b ∧ b - a < (x :: rest).length := ⟨by omega, by rw [List.length_cons]; omega⟩
        rw [dif_pos hin, dif_pos hin']
        simp only [e, List.getElem_cons_succ]
      · have hout : ¬(a ≤ b ∧ b - a < (x :: rest).length) := by
          rw [List.length_cons]
          omega
        rw [dif_neg hin, dif_neg hout, if_neg hb]

theorem Memory.read_of_forall_gt {m : Memory} {a : Nat} (h : ∀ d ∈ m, a < d.1) : m.read a = Memory.unlisted := by
  induction m with
  | nil => rfl
  | cons c m ih =>
    have hc := h c List.mem_cons_self
    rw [Memory.read_cons, if_neg (by omega), ih fun d hd => h d (List.mem_cons_of_mem c hd)]

end Sys2Proof.Machine
end

