-- ==== Sys2Proof/Laws/State.lean ====
section
/-! SUPPORT. One lemma per field per update of the state, true by rfl, and the laws of the register file, so that
no later proof unfolds a record update. -/

namespace Sys2Proof.Machine

@[simp] theorem State.setReg_regs (s : State) (i : RegIx) (v : Byte) : (s.setReg i v).regs = s.regs.set i v := rfl
@[simp] theorem State.setReg_pc (s : State) (i : RegIx) (v : Byte) : (s.setReg i v).pc = s.pc := rfl
@[simp] theorem State.setReg_flags (s : State) (i : RegIx) (v : Byte) : (s.setReg i v).flags = s.flags := rfl
@[simp] theorem State.setReg_status (s : State) (i : RegIx) (v : Byte) : (s.setReg i v).status = s.status := rfl
@[simp] theorem State.setReg_mem (s : State) (i : RegIx) (v : Byte) : (s.setReg i v).mem = s.mem := rfl
@[simp] theorem State.setReg_out (s : State) (i : RegIx) (v : Byte) : (s.setReg i v).out = s.out := rfl
@[simp] theorem State.setReg_cfg (s : State) (i : RegIx) (v : Byte) : (s.setReg i v).cfg = s.cfg := rfl
@[simp] theorem State.setReg_cell (s : State) (i : RegIx) (v : Byte) (k : Nat) : (s.setReg i v).cell k = s.cell k := rfl

@[simp] theorem State.setPc_regs (s : State) (a : Byte) : (s.setPc a).regs = s.regs := rfl
@[simp] theorem State.setPc_pc (s : State) (a : Byte) : (s.setPc a).pc = a := rfl
@[simp] theorem State.setPc_flags (s : State) (a : Byte) : (s.setPc a).flags = s.flags := rfl
@[simp] theorem State.setPc_status (s : State) (a : Byte) : (s.setPc a).status = s.status := rfl
@[simp] theorem State.setPc_mem (s : State) (a : Byte) : (s.setPc a).mem = s.mem := rfl
@[simp] theorem State.setPc_out (s : State) (a : Byte) : (s.setPc a).out = s.out := rfl
@[simp] theorem State.setPc_cfg (s : State) (a : Byte) : (s.setPc a).cfg = s.cfg := rfl
@[simp] theorem State.setPc_reg (s : State) (a : Byte) (j : RegIx) : (s.setPc a).reg j = s.reg j := rfl
@[simp] theorem State.setPc_sp (s : State) (a : Byte) : (s.setPc a).sp = s.sp := rfl
@[simp] theorem State.setPc_cell (s : State) (a : Byte) (k : Nat) : (s.setPc a).cell k = s.cell k := rfl

@[simp] theorem State.setFlags_regs (s : State) (f : Flags) : (s.setFlags f).regs = s.regs := rfl
@[simp] theorem State.setFlags_pc (s : State) (f : Flags) : (s.setFlags f).pc = s.pc := rfl
@[simp] theorem State.setFlags_flags (s : State) (f : Flags) : (s.setFlags f).flags = f := rfl
@[simp] theorem State.setFlags_status (s : State) (f : Flags) : (s.setFlags f).status = s.status := rfl
@[simp] theorem State.setFlags_mem (s : State) (f : Flags) : (s.setFlags f).mem = s.mem := rfl
@[simp] theorem State.setFlags_out (s : State) (f : Flags) : (s.setFlags f).out = s.out := rfl
@[simp] theorem State.setFlags_cfg (s : State) (f : Flags) : (s.setFlags f).cfg = s.cfg := rfl
@[simp] theorem State.setFlags_reg (s : State) (f : Flags) (j : RegIx) : (s.setFlags f).reg j = s.reg j := rfl
@[simp] theorem State.setFlags_sp (s : State) (f : Flags) : (s.setFlags f).sp = s.sp := rfl
@[simp] theorem State.setFlags_cell (s : State) (f : Flags) (k : Nat) : (s.setFlags f).cell k = s.cell k := rfl

@[simp] theorem State.setStatus_regs (s : State) (t : Status) : (s.setStatus t).regs = s.regs := rfl
@[simp] theorem State.setStatus_pc (s : State) (t : Status) : (s.setStatus t).pc = s.pc := rfl
@[simp] theorem State.setStatus_flags (s : State) (t : Status) : (s.setStatus t).flags = s.flags := rfl
@[simp] theorem State.setStatus_status (s : State) (t : Status) : (s.setStatus t).status = t := rfl
@[simp] theorem State.setStatus_mem (s : State) (t : Status) : (s.setStatus t).mem = s.mem := rfl
@[simp] theorem State.setStatus_out (s : State) (t : Status) : (s.setStatus t).out = s.out := rfl
@[simp] theorem State.setStatus_cfg (s : State) (t : Status) : (s.setStatus t).cfg = s.cfg := rfl
@[simp] theorem State.setStatus_reg (s : State) (t : Status) (j : RegIx) : (s.setStatus t).reg j = s.reg j := rfl
@[simp] theorem State.setStatus_sp (s : State) (t : Status) : (s.setStatus t).sp = s.sp := rfl
@[simp] theorem State.setStatus_cell (s : State) (t : Status) (k : Nat) : (s.setStatus t).cell k = s.cell k := rfl

@[simp] theorem State.setMem_regs (s : State) (m : Memory) : (s.setMem m).regs = s.regs := rfl
@[simp] theorem State.setMem_pc (s : State) (m : Memory) : (s.setMem m).pc = s.pc := rfl
@[simp] theorem State.setMem_flags (s : State) (m : Memory) : (s.setMem m).flags = s.flags := rfl
@[simp] theorem State.setMem_status (s : State) (m : Memory) : (s.setMem m).status = s.status := rfl
@[simp] theorem State.setMem_mem (s : State) (m : Memory) : (s.setMem m).mem = m := rfl
@[simp] theorem State.setMem_out (s : State) (m : Memory) : (s.setMem m).out = s.out := rfl
@[simp] theorem State.setMem_cfg (s : State) (m : Memory) : (s.setMem m).cfg = s.cfg := rfl
@[simp] theorem State.setMem_reg (s : State) (m : Memory) (j : RegIx) : (s.setMem m).reg j = s.reg j := rfl
@[simp] theorem State.setMem_sp (s : State) (m : Memory) : (s.setMem m).sp = s.sp := rfl

@[simp] theorem State.emit_regs (s : State) (v : Byte) : (s.emit v).regs = s.regs := rfl
@[simp] theorem State.emit_pc (s : State) (v : Byte) : (s.emit v).pc = s.pc := rfl
@[simp] theorem State.emit_flags (s : State) (v : Byte) : (s.emit v).flags = s.flags := rfl
@[simp] theorem State.emit_status (s : State) (v : Byte) : (s.emit v).status = s.status := rfl
@[simp] theorem State.emit_mem (s : State) (v : Byte) : (s.emit v).mem = s.mem := rfl
@[simp] theorem State.emit_out (s : State) (v : Byte) : (s.emit v).out = s.out ++ [v] := rfl
@[simp] theorem State.emit_cfg (s : State) (v : Byte) : (s.emit v).cfg = s.cfg := rfl
@[simp] theorem State.emit_reg (s : State) (v : Byte) (j : RegIx) : (s.emit v).reg j = s.reg j := rfl
@[simp] theorem State.emit_sp (s : State) (v : Byte) : (s.emit v).sp = s.sp := rfl
@[simp] theorem State.emit_cell (s : State) (v : Byte) (k : Nat) : (s.emit v).cell k = s.cell k := rfl

@[simp] theorem State.raised_regs (s : State) (c : Cause) (n : Nat) : (s.raised c n).regs = s.regs := rfl
@[simp] theorem State.raised_pc (s : State) (c : Cause) (n : Nat) : (s.raised c n).pc = s.pc := rfl
@[simp] theorem State.raised_flags (s : State) (c : Cause) (n : Nat) : (s.raised c n).flags = s.flags := rfl
@[simp] theorem State.raised_status (s : State) (c : Cause) (n : Nat) : (s.raised c n).status = .faulted ⟨c, s.pc, BitVec.ofNat 9 n⟩ := rfl
@[simp] theorem State.raised_mem (s : State) (c : Cause) (n : Nat) : (s.raised c n).mem = s.mem := rfl
@[simp] theorem State.raised_out (s : State) (c : Cause) (n : Nat) : (s.raised c n).out = s.out := rfl
@[simp] theorem State.raised_cfg (s : State) (c : Cause) (n : Nat) : (s.raised c n).cfg = s.cfg := rfl
@[simp] theorem State.raised_reg (s : State) (c : Cause) (n : Nat) (j : RegIx) : (s.raised c n).reg j = s.reg j := rfl
@[simp] theorem State.raised_sp (s : State) (c : Cause) (n : Nat) : (s.raised c n).sp = s.sp := rfl
@[simp] theorem State.raised_cell (s : State) (c : Cause) (n : Nat) (k : Nat) : (s.raised c n).cell k = s.cell k := rfl

@[simp] theorem State.setSp_regs (s : State) (v : Byte) : (s.setSp v).regs = s.regs.set spIx v := rfl
@[simp] theorem State.setSp_pc (s : State) (v : Byte) : (s.setSp v).pc = s.pc := rfl
@[simp] theorem State.setSp_flags (s : State) (v : Byte) : (s.setSp v).flags = s.flags := rfl
@[simp] theorem State.setSp_status (s : State) (v : Byte) : (s.setSp v).status = s.status := rfl
@[simp] theorem State.setSp_mem (s : State) (v : Byte) : (s.setSp v).mem = s.mem := rfl
@[simp] theorem State.setSp_out (s : State) (v : Byte) : (s.setSp v).out = s.out := rfl
@[simp] theorem State.setSp_cfg (s : State) (v : Byte) : (s.setSp v).cfg = s.cfg := rfl
@[simp] theorem State.setSp_cell (s : State) (v : Byte) (k : Nat) : (s.setSp v).cell k = s.cell k := rfl

@[simp] theorem State.setMem_cell (s : State) (m : Memory) (k : Nat) : (s.setMem m).cell k = m.read k := rfl

/-- Reading a register after a write (R10). -/
theorem Regs.get_set (r : Regs) (i j : RegIx) (v : Byte) :
    (r.set i v).get j = if j = i then v else r.get j := by
  fin_cases i <;> fin_cases j <;> rfl

@[simp] theorem Regs.get_set_same (r : Regs) (i : RegIx) (v : Byte) : (r.set i v).get i = v := by
  simp [Regs.get_set]

theorem Regs.get_set_other (r : Regs) {i j : RegIx} (v : Byte) (h : j ≠ i) : (r.set i v).get j = r.get j := by
  simp [Regs.get_set, h]

/-- Two register files with the same eight values are the same. -/
theorem Regs.ext_get {r q : Regs} (h : ∀ i, r.get i = q.get i) : r = q := by
  cases r
  cases q
  simp only [Regs.mk.injEq]
  exact ⟨h 0, h 1, h 2, h 3, h 4, h 5, h 6, h 7⟩

theorem State.reg_setReg (s : State) (i j : RegIx) (v : Byte) :
    (s.setReg i v).reg j = if j = i then v else s.reg j := Regs.get_set s.regs i j v

@[simp] theorem State.reg_setReg_same (s : State) (i : RegIx) (v : Byte) : (s.setReg i v).reg i = v :=
  Regs.get_set_same s.regs i v

theorem State.reg_setReg_other (s : State) {i j : RegIx} (v : Byte) (h : j ≠ i) : (s.setReg i v).reg j = s.reg j :=
  Regs.get_set_other s.regs v h

theorem State.reg_setSp (s : State) (j : RegIx) (v : Byte) :
    (s.setSp v).reg j = if j = spIx then v else s.reg j := State.reg_setReg s spIx j v

theorem State.reg_setSp_other (s : State) {j : RegIx} (v : Byte) (h : j ≠ spIx) : (s.setSp v).reg j = s.reg j :=
  State.reg_setReg_other s v h

@[simp] theorem State.sp_setSp (s : State) (v : Byte) : (s.setSp v).sp = v := State.reg_setReg_same s spIx v

theorem State.sp_setReg (s : State) (i : RegIx) (v : Byte) :
    (s.setReg i v).sp = if spIx = i then v else s.sp := State.reg_setReg s i spIx v

end Sys2Proof.Machine
end

