-- ==== Sys2Proof/Laws/Ops.lean ====
section
/-! SUPPORT. For each shared operation, what it does under its condition, and once everything it can do: if it
answers `next t`, then one of the listed cases holds. Provers cite these and do not unfold the operations. -/

namespace Sys2Proof.Machine

theorem byte_lt_memSize (b : Byte) : b.toNat < memSize := b.isLt

/-! ### The register accesses (R13) -/

theorem readReg_of_lt {i : Byte} (h : i.toNat < 8) (s : State) (k : Byte → Result) :
    readReg i s k = k (s.reg ⟨i.toNat, h⟩) := by
  simp [readReg, h]

theorem readReg_of_names {i : Byte} {a : RegIx} (h : i.toNat = a.val) (s : State) (k : Byte → Result) :
    readReg i s k = k (s.reg a) := by
  have hi : i.toNat < 8 := h ▸ a.isLt
  have ha : (⟨i.toNat, hi⟩ : RegIx) = a := Fin.ext h
  rw [readReg_of_lt hi, ha]

theorem readReg_of_ge {i : Byte} (h : 8 ≤ i.toNat) (s : State) (k : Byte → Result) :
    readReg i s k = raise .outOfBoundsAddress i.toNat s := by
  simp [readReg, Nat.not_lt.2 h]

theorem writeReg_of_names {i : Byte} {a : RegIx} (h : i.toNat = a.val) (v : Byte) (s : State) (k : State → Result) :
    writeReg i v s k = k (s.setReg a v) := by
  have hi : i.toNat < 8 := h ▸ a.isLt
  have ha : (⟨i.toNat, hi⟩ : RegIx) = a := Fin.ext h
  simp only [writeReg, dif_pos hi, ha]

theorem writeReg_of_ge {i : Byte} (h : 8 ≤ i.toNat) (v : Byte) (s : State) (k : State → Result) :
    writeReg i v s k = raise .outOfBoundsAddress i.toNat s := by
  simp [writeReg, Nat.not_lt.2 h]

/-- An operand byte names a register or lies above 7. -/
theorem names_or_ge (i : Byte) : (∃ a : RegIx, i.toNat = a.val) ∨ 8 ≤ i.toNat := by
  by_cases h : i.toNat < 8
  · exact .inl ⟨⟨i.toNat, h⟩, rfl⟩
  · exact .inr (Nat.not_lt.1 h)

theorem raise_next {c : Cause} {n : Nat} {s t : State} : raise c n s = .next t ↔ t = s.raised c n := by
  simp [raise, eq_comm]

theorem readReg_next {i : Byte} {s t : State} {k : Byte → Result} (h : readReg i s k = .next t) :
    (∃ a : RegIx, i.toNat = a.val ∧ k (s.reg a) = .next t) ∨
    (8 ≤ i.toNat ∧ t = s.raised .outOfBoundsAddress i.toNat) := by
  rcases names_or_ge i with ⟨a, ha⟩ | hi
  · exact .inl ⟨a, ha, readReg_of_names ha s k ▸ h⟩
  · exact .inr ⟨hi, raise_next.1 (readReg_of_ge hi s k ▸ h)⟩

theorem writeReg_next {i v : Byte} {s t : State} {k : State → Result} (h : writeReg i v s k = .next t) :
    (∃ a : RegIx, i.toNat = a.val ∧ k (s.setReg a v) = .next t) ∨
    (8 ≤ i.toNat ∧ t = s.raised .outOfBoundsAddress i.toNat) := by
  rcases names_or_ge i with ⟨a, ha⟩ | hi
  · exact .inl ⟨a, ha, writeReg_of_names ha v s k ▸ h⟩
  · exact .inr ⟨hi, raise_next.1 (writeReg_of_ge hi v s k ▸ h)⟩

/-! ### The memory accesses (R45) -/

theorem memRead_of_lt {a : Nat} (h : a < memSize) (s : State) (k : Byte → Result) :
    memRead a s k = k (s.cell a) := by
  simp [memRead, h, State.cell]

theorem memRead_of_ge {a : Nat} (h : memSize ≤ a) (s : State) (k : Byte → Result) :
    memRead a s k = raise .outOfBoundsAddress a s := by
  simp [memRead, Nat.not_lt.2 h]

/-- An address taken from a byte is always inside memory (R45). -/
@[simp] theorem memRead_byte (b : Byte) (s : State) (k : Byte → Result) :
    memRead b.toNat s k = k (s.cell b.toNat) := memRead_of_lt (byte_lt_memSize b) s k

@[simp] theorem memWrite_byte (b v : Byte) (s : State) (k : State → Result) :
    memWrite b.toNat v s k = k (s.setMem (s.mem.write b.toNat v)) := by
  simp [memWrite, byte_lt_memSize b]

/-! ### The advance (R17) -/

theorem advance_of_lt {len : Nat} {s : State} (h : s.pc.toNat + len < memSize) :
    advance len s = .next (s.setPc (BitVec.ofNat 8 (s.pc.toNat + len))) := by
  simp [advance, h]

theorem advance_of_ge {len : Nat} {s : State} (h : memSize ≤ s.pc.toNat + len) :
    advance len s = raise .outOfBoundsAddress (s.pc.toNat + len) s := by
  simp [advance, Nat.not_lt.2 h]

theorem advance_next {len : Nat} {s t : State} (h : advance len s = .next t) :
    (s.pc.toNat + len < memSize ∧ t = s.setPc (BitVec.ofNat 8 (s.pc.toNat + len))) ∨
    (memSize ≤ s.pc.toNat + len ∧ t = s.raised .outOfBoundsAddress (s.pc.toNat + len)) := by
  by_cases hl : s.pc.toNat + len < memSize
  · rw [advance_of_lt hl] at h
    exact .inl ⟨hl, (Host.Outcome.next.inj h).symm⟩
  · have hg := Nat.not_lt.1 hl
    exact .inr ⟨hg, raise_next.1 (advance_of_ge hg ▸ h)⟩

/-- Adding to `pc` as a byte and forming the sum as an integer agree where the sum fits (R17). -/
theorem ofNat_pc_add (s : State) (n : Nat) : BitVec.ofNat 8 (s.pc.toNat + n) = s.pc + BitVec.ofNat 8 n := by
  apply BitVec.eq_of_toNat_eq
  simp

/-! ### The fetch and the illegal-opcode rule (R81, R82, R86) -/

theorem fetch_of_lt {s : State} (h : s.pc.toNat + 2 < memSize) (k : Byte → Byte → Byte → Result) :
    fetch s k = k (s.cell s.pc.toNat) (s.cell (s.pc.toNat + 1)) (s.cell (s.pc.toNat + 2)) := by
  have h1 : s.pc.toNat + 1 < memSize := by omega
  simp only [fetch, memRead_byte, memRead_of_lt h1, memRead_of_lt h]

/-- At 254 and 255 the fetch faults with the address 256. -/
theorem fetch_of_ge {s : State} (h : memSize ≤ s.pc.toNat + 2) (k : Byte → Byte → Byte → Result) :
    fetch s k = raise .outOfBoundsAddress 256 s := by
  have hb := byte_lt_memSize s.pc
  simp only [memSize] at h hb
  have hp : s.pc.toNat = 254 ∨ s.pc.toNat = 255 := by omega
  rcases hp with hp | hp <;> simp [fetch, memRead, memSize, hp]

theorem illegalOpcode_next {ir : Byte} {s t : State} (h : illegalOpcode ir s = .next t) :
    (s.cfg.illegalOpcodePolicy = .fault ∧ t = s.raised .illegalOpcode ir.toNat) ∨
    (s.cfg.illegalOpcodePolicy = .skip ∧ advance (opcodeLength ir) s = .next t) := by
  unfold illegalOpcode at h
  split at h
  · rename_i hp
    exact .inl ⟨hp, raise_next.1 h⟩
  · rename_i hp
    exact .inr ⟨hp, h⟩

end Sys2Proof.Machine
end

