-- ==== Sys2Proof/Laws/Exec.lean ====
section
/-! SUPPORT. Everything each meaning and the step can do: if it answers `next t`, then one of the listed cases
holds, guards included. Later proofs cite these and do not unfold the meanings. -/

namespace Sys2Proof.Machine

/-! ### What exec runs for each instruction -/

theorem exec_hlt (s : State) : exec .hlt s = execHlt s := rfl
theorem exec_ldi (ra imm : Byte) (s : State) : exec (.ldi ra imm) s = execLdi ra imm s := rfl
theorem exec_prn (ra : Byte) (s : State) : exec (.prn ra) s = execPrn ra s := rfl
theorem exec_add (ra rb : Byte) (s : State) : exec (.add ra rb) s = arith .add ra rb s := rfl
theorem exec_sub (ra rb : Byte) (s : State) : exec (.sub ra rb) s = arith .sub ra rb s := rfl
theorem exec_mul (ra rb : Byte) (s : State) : exec (.mul ra rb) s = arith .mul ra rb s := rfl
theorem exec_div (ra rb : Byte) (s : State) : exec (.div ra rb) s = arith .div ra rb s := rfl
theorem exec_mod (ra rb : Byte) (s : State) : exec (.mod ra rb) s = arith .mod ra rb s := rfl
theorem exec_cmp (ra rb : Byte) (s : State) : exec (.cmp ra rb) s = execCmp ra rb s := rfl
theorem exec_push (ra : Byte) (s : State) : exec (.push ra) s = execPush ra s := rfl
theorem exec_pop (ra : Byte) (s : State) : exec (.pop ra) s = execPop ra s := rfl
theorem exec_call (ra : Byte) (s : State) : exec (.call ra) s = execCall ra s := rfl
theorem exec_ret (s : State) : exec .ret s = execRet s := rfl
theorem exec_jmp (ra : Byte) (s : State) : exec (.jmp ra) s = jumpTo ra s := rfl
theorem exec_jeq (ra : Byte) (s : State) : exec (.jeq ra) s = execJeq ra s := rfl
theorem exec_jne (ra : Byte) (s : State) : exec (.jne ra) s = execJne ra s := rfl

/-! ### Everything a meaning can do -/

theorem execLdi_next {ra imm : Byte} {s t : State} (h : execLdi ra imm s = .next t) :
    (∃ a : RegIx, ra.toNat = a.val ∧ advance 3 (s.setReg a imm) = .next t) ∨
    (8 ≤ ra.toNat ∧ t = s.raised .outOfBoundsAddress ra.toNat) := writeReg_next h

theorem execPrn_next {ra : Byte} {s t : State} (h : execPrn ra s = .next t) :
    (∃ a : RegIx, ra.toNat = a.val ∧ advance 2 (s.emit (s.reg a)) = .next t) ∨
    (8 ≤ ra.toNat ∧ t = s.raised .outOfBoundsAddress ra.toNat) := readReg_next h

/-- The five arithmetic handlers share this (R123). -/
theorem arith_next {op : AluOp} {ra rb : Byte} {s t : State} (h : arith op ra rb s = .next t) :
    (∃ (a b : RegIx) (v : Byte), ra.toNat = a.val ∧ rb.toNat = b.val ∧ aluApply op (s.reg a) (s.reg b) = some v ∧
      advance 3 (s.setReg a v) = .next t) ∨
    (∃ a b : RegIx, ra.toNat = a.val ∧ rb.toNat = b.val ∧ aluApply op (s.reg a) (s.reg b) = none ∧
      t = s.raised .divideByZero rb.toNat) ∨
    (8 ≤ ra.toNat ∧ t = s.raised .outOfBoundsAddress ra.toNat) ∨
    (∃ a : RegIx, ra.toNat = a.val ∧ 8 ≤ rb.toNat ∧ t = s.raised .outOfBoundsAddress rb.toNat) := by
  rcases readReg_next h with ⟨a, ha, h⟩ | h
  · rcases readReg_next h with ⟨b, hb, h⟩ | h
    · rcases hv : aluApply op (s.reg a) (s.reg b) with _ | v
      · rw [hv] at h
        exact .inr (.inl ⟨a, b, ha, hb, hv, raise_next.1 h⟩)
      · rw [hv] at h
        simp only [writeReg_of_names ha] at h
        exact .inl ⟨a, b, v, ha, hb, hv, h⟩
    · exact .inr (.inr (.inr ⟨a, ha, h.1, h.2⟩))
  · exact .inr (.inr (.inl h))

/-- The ALU has no result exactly for a zero divisor (R115). -/
theorem aluApply_eq_none {op : AluOp} {a b : Byte} :
    aluApply op a b = none ↔ (op = .div ∨ op = .mod) ∧ b = 0 := by
  cases op <;> simp [aluApply]

theorem execCmp_next {ra rb : Byte} {s t : State} (h : execCmp ra rb s = .next t) :
    (∃ a b : RegIx, ra.toNat = a.val ∧ rb.toNat = b.val ∧
      advance 3 (s.setFlags (compareFlags s.cfg.cmpFlagPolicy (s.reg a) (s.reg b) s.flags)) = .next t) ∨
    (8 ≤ ra.toNat ∧ t = s.raised .outOfBoundsAddress ra.toNat) ∨
    (∃ a : RegIx, ra.toNat = a.val ∧ 8 ≤ rb.toNat ∧ t = s.raised .outOfBoundsAddress rb.toNat) := by
  rcases readReg_next h with ⟨a, ha, h⟩ | h
  · rcases readReg_next h with ⟨b, hb, h⟩ | h
    · exact .inl ⟨a, b, ha, hb, h⟩
    · exact .inr (.inr ⟨a, ha, h.1, h.2⟩)
  · exact .inr (.inl h)

theorem execPush_next {ra : Byte} {s t : State} (h : execPush ra s = .next t) :
    (∃ a : RegIx, ra.toNat = a.val ∧
      advance 2 ((s.setSp (s.sp - 1)).setMem
        (s.mem.write (s.sp - 1).toNat ((s.setSp (s.sp - 1)).reg a))) = .next t) ∨
    (8 ≤ ra.toNat ∧ t = (s.setSp (s.sp - 1)).raised .outOfBoundsAddress ra.toNat) := by
  unfold execPush at h
  simp only [State.sp_setSp, memWrite_byte, State.setSp_mem] at h
  rcases readReg_next h with ⟨a, ha, h⟩ | h
  · exact .inl ⟨a, ha, h⟩
  · exact .inr h

theorem execPop_next {ra : Byte} {s t : State} (h : execPop ra s = .next t) :
    (∃ a : RegIx, ra.toNat = a.val ∧
      advance 2 ((s.setReg a (s.cell s.sp.toNat)).setSp ((s.setReg a (s.cell s.sp.toNat)).sp + 1)) = .next t) ∨
    (8 ≤ ra.toNat ∧ t = s.raised .outOfBoundsAddress ra.toNat) := by
  unfold execPop at h
  rw [memRead_byte] at h
  exact writeReg_next h

theorem execCall_next {ra : Byte} {s t : State} (h : execCall ra s = .next t) :
    (∃ a : RegIx, ra.toNat = a.val ∧
      t = ((s.setSp (s.sp - 1)).setMem (s.mem.write (s.sp - 1).toNat (s.pc + 2))).setPc
        ((s.setSp (s.sp - 1)).reg a)) ∨
    (8 ≤ ra.toNat ∧
      t = ((s.setSp (s.sp - 1)).setMem (s.mem.write (s.sp - 1).toNat (s.pc + 2))).raised
        .outOfBoundsAddress ra.toNat) := by
  unfold execCall at h
  simp only [State.sp_setSp, memWrite_byte, State.setSp_mem, State.setSp_pc] at h
  rcases readReg_next h with ⟨a, ha, h⟩ | h
  · exact .inl ⟨a, ha, by simpa using (Host.Outcome.next.inj h).symm⟩
  · exact .inr h

theorem execRet_eq (s : State) :
    execRet s = .next ((s.setPc (s.cell s.sp.toNat)).setSp (s.sp + 1)) := by
  unfold execRet
  rw [memRead_byte]

theorem jumpTo_next {ra : Byte} {s t : State} (h : jumpTo ra s = .next t) :
    (∃ a : RegIx, ra.toNat = a.val ∧ t = s.setPc (s.reg a)) ∨
    (8 ≤ ra.toNat ∧ t = s.raised .outOfBoundsAddress ra.toNat) := by
  rcases readReg_next h with ⟨a, ha, h⟩ | h
  · exact .inl ⟨a, ha, (Host.Outcome.next.inj h).symm⟩
  · exact .inr h

theorem execJeq_next {ra : Byte} {s t : State} (h : execJeq ra s = .next t) :
    (s.flags.e = true ∧ jumpTo ra s = .next t) ∨ (s.flags.e = false ∧ advance 2 s = .next t) := by
  unfold execJeq at h
  cases he : s.flags.e <;> simp [he] at h <;> simp [h]

theorem execJne_next {ra : Byte} {s t : State} (h : execJne ra s = .next t) :
    (s.flags.e = false ∧ jumpTo ra s = .next t) ∨ (s.flags.e = true ∧ advance 2 s = .next t) := by
  unfold execJne at h
  cases he : s.flags.e <;> simp [he] at h <;> simp [h]

/-! ### The step -/

/-- A cycle that gets past the fetch runs the decoded instruction or applies the illegal-opcode rule. -/
theorem step_running {s : State} (hr : s.status = .running) (hp : s.pc.toNat + 2 < memSize) :
    step s =
      match s.cfg.lookup (s.cell s.pc.toNat) with
      | some o => exec (o.instr (s.cell (s.pc.toNat + 1)) (s.cell (s.pc.toNat + 2))) s
      | none => illegalOpcode (s.cell s.pc.toNat) s := by
  unfold step
  rw [hr]
  simp only [fetch_of_lt hp]
  rcases hl : s.cfg.lookup (s.cell s.pc.toNat) with _ | o
  · simp only [decode_three_none hl]
  · obtain ⟨r, h⟩ := decode_three_some hl (s.cell (s.pc.toNat + 1)) (s.cell (s.pc.toNat + 2))
    simp only [h]

/-- Everything a step can do (R22, R82, R84, R86). -/
theorem step_next {s t : State} (h : step s = .next t) :
    (s.status ≠ .running ∧ t = s) ∨
    (s.status = .running ∧ memSize ≤ s.pc.toNat + 2 ∧ t = s.raised .outOfBoundsAddress 256) ∨
    (s.status = .running ∧ s.pc.toNat + 2 < memSize ∧ ∃ o : Op, s.cfg.lookup (s.cell s.pc.toNat) = some o ∧
      exec (o.instr (s.cell (s.pc.toNat + 1)) (s.cell (s.pc.toNat + 2))) s = .next t) ∨
    (s.status = .running ∧ s.pc.toNat + 2 < memSize ∧ s.cfg.lookup (s.cell s.pc.toNat) = none ∧
      illegalOpcode (s.cell s.pc.toNat) s = .next t) := by
  rcases hs : s.status with _ | _ | r
  · by_cases hp : s.pc.toNat + 2 < memSize
    · rw [step_running hs hp] at h
      rcases hl : s.cfg.lookup (s.cell s.pc.toNat) with _ | o
      · rw [hl] at h
        exact .inr (.inr (.inr ⟨rfl, hp, rfl, h⟩))
      · rw [hl] at h
        exact .inr (.inr (.inl ⟨rfl, hp, o, rfl, h⟩))
    · have hg := Nat.not_lt.1 hp
      unfold step at h
      rw [hs] at h
      simp only [fetch_of_ge hg] at h
      exact .inr (.inl ⟨rfl, hg, raise_next.1 h⟩)
  · unfold step at h
    rw [hs] at h
    exact .inl ⟨by simp, (Host.Outcome.next.inj h).symm⟩
  · unfold step at h
    rw [hs] at h
    exact .inl ⟨by simp, (Host.Outcome.next.inj h).symm⟩

end Sys2Proof.Machine
end

