-- ==== Sys2Proof/Laws/PerInstr.lean ====
section
/-! SUPPORT. The family EncodedLength: under every legal opcode map the encoder gives an instruction as many bytes
as the length formula reads from its opcode byte (R62). -/

namespace Sys2Proof.Laws.EncodedLength

def Statement (i : Instr) : Prop :=
  ∀ c : Config, c.opcodes.wf = true → (encode c i).length = opcodeLength (c.opcodes.byte i.op)

theorem of_format (i : Instr) : Statement i := by
  intro c hc
  rw [encode, List.length_cons, Instr.operands_length, opcodeLength, OpcodeMap.operandField_byte hc]

theorem hlt : Statement .hlt := of_format _
theorem ldi (ra imm : Byte) : Statement (.ldi ra imm) := of_format _
theorem prn (ra : Byte) : Statement (.prn ra) := of_format _
theorem add (ra rb : Byte) : Statement (.add ra rb) := of_format _
theorem sub (ra rb : Byte) : Statement (.sub ra rb) := of_format _
theorem mul (ra rb : Byte) : Statement (.mul ra rb) := of_format _
theorem div (ra rb : Byte) : Statement (.div ra rb) := of_format _
theorem mod (ra rb : Byte) : Statement (.mod ra rb) := of_format _
theorem cmp (ra rb : Byte) : Statement (.cmp ra rb) := of_format _
theorem push (ra : Byte) : Statement (.push ra) := of_format _
theorem pop (ra : Byte) : Statement (.pop ra) := of_format _
theorem call (ra : Byte) : Statement (.call ra) := of_format _
theorem ret : Statement .ret := of_format _
theorem jmp (ra : Byte) : Statement (.jmp ra) := of_format _
theorem jeq (ra : Byte) : Statement (.jeq ra) := of_format _
theorem jne (ra : Byte) : Statement (.jne ra) := of_format _

end Sys2Proof.Laws.EncodedLength
end

