-- ==== Sys2Proof/Tests/Slice0.lean ====
section
/-! SUPPORT. The model's own tests: an ill-formed term for each check of WellFormed, a word for each constructor
written out from its encoding (R66, R67), one-step vectors of 95_test_vectors.md (the id stands in the name), and a
witness for the hypotheses of each statement. Every expected value is the spec's. -/

namespace Sys2Proof.Tests

open Sys2Proof Sys2Proof.Machine

/-! ### Ill-formed terms (WellFormed) -/

theorem test_wf_refuses_ldi : (Instr.ldi 8 0).wf = false := by decide
theorem test_wf_refuses_prn : (Instr.prn 255).wf = false := by decide
theorem test_wf_refuses_add : (Instr.add 8 0).wf = false ∧ (Instr.add 0 8).wf = false := by decide
theorem test_wf_refuses_sub : (Instr.sub 8 0).wf = false ∧ (Instr.sub 0 8).wf = false := by decide
theorem test_wf_refuses_mul : (Instr.mul 8 0).wf = false ∧ (Instr.mul 0 8).wf = false := by decide
theorem test_wf_refuses_div : (Instr.div 8 0).wf = false ∧ (Instr.div 0 8).wf = false := by decide
theorem test_wf_refuses_mod : (Instr.mod 8 0).wf = false ∧ (Instr.mod 0 8).wf = false := by decide
theorem test_wf_refuses_cmp : (Instr.cmp 8 0).wf = false ∧ (Instr.cmp 0 8).wf = false := by decide
theorem test_wf_refuses_push : (Instr.push 9).wf = false := by decide
theorem test_wf_refuses_pop : (Instr.pop 9).wf = false := by decide
theorem test_wf_refuses_call : (Instr.call 200).wf = false := by decide
theorem test_wf_refuses_jmp : (Instr.jmp 8).wf = false := by decide
theorem test_wf_refuses_jeq : (Instr.jeq 99).wf = false := by decide
theorem test_wf_refuses_jne : (Instr.jne 99).wf = false := by decide
theorem test_wf_accepts : (Instr.add 7 0).wf = true ∧ (Instr.ldi 7 255).wf = true := by decide
theorem test_opcodes_wf : OpcodeMap.default.wf = true := by decide
theorem test_opcodes_wf_refuses_count : { OpcodeMap.default with hlt := 0x41 }.wf = false := by decide
theorem test_opcodes_wf_refuses_clash : { OpcodeMap.default with hlt := 0x11 }.wf = false := by decide

/-! ### Words written out from the encodings, numbered as the opcode table numbers them: byte 0 in bits 7..0 -/

theorem test_word_hlt : decodeTableWord 8 0b00000001 = some .hlt := by decide
theorem test_word_ldi : decodeTableWord 24 0b11110100_00000111_10000010 = some (.ldi 7 0xF4) := by decide
theorem test_word_prn : decodeTableWord 16 0b00000011_01000111 = some (.prn 3) := by decide
theorem test_word_add : decodeTableWord 24 0b00000001_00000010_10100000 = some (.add 2 1) := by decide
theorem test_word_sub : decodeTableWord 24 0b00000001_00000010_10100001 = some (.sub 2 1) := by decide
theorem test_word_mul : decodeTableWord 24 0b00000001_00000010_10100010 = some (.mul 2 1) := by decide
theorem test_word_div : decodeTableWord 24 0b00000001_00000010_10100011 = some (.div 2 1) := by decide
theorem test_word_mod : decodeTableWord 24 0b00000001_00000010_10100100 = some (.mod 2 1) := by decide
theorem test_word_cmp : decodeTableWord 24 0b00000001_00000010_10100111 = some (.cmp 2 1) := by decide
theorem test_word_push : decodeTableWord 16 0b00000100_01000101 = some (.push 4) := by decide
theorem test_word_pop : decodeTableWord 16 0b00000100_01000110 = some (.pop 4) := by decide
theorem test_word_call : decodeTableWord 16 0b00000001_01010000 = some (.call 1) := by decide
theorem test_word_ret : decodeTableWord 8 0b00010001 = some .ret := by decide
theorem test_word_jmp : decodeTableWord 16 0b00000010_01010100 = some (.jmp 2) := by decide
theorem test_word_jeq : decodeTableWord 16 0b00000010_01010101 = some (.jeq 2) := by decide
theorem test_word_jne : decodeTableWord 16 0b00000010_01010110 = some (.jne 2) := by decide
/-- V61 and R71: the same low six bits as HLT, and the byte 0, are not bound. -/
theorem test_word_unbound : decodeTableWord 8 0x41 = none ∧ decodeTableWord 8 0x00 = none := by decide

/-! ### One-step vectors -/

/-- The bytes at `pc`, everything else as reset leaves it. -/
def placed (pc : Byte) (bytes : List Byte) : State :=
  { State.reset with pc := pc, mem := Memory.writeBytes [] pc.toNat bytes }

/-- What a step shows of the next state. -/
def sees {α : Type} (r : Result) (f : State → α) : Option α :=
  match r with
  | .next t => some (f t)
  | .fault _ => none
  | .refused _ => none

/-- The optional ALU instructions bound. -/
def withExt (s : State) : State := { s with cfg := tableConfig }

/-- `CMP_FLAG_POLICY = set_only`. -/
def withSetOnly (s : State) : State := { s with cfg := { defaultConfig with cmpFlagPolicy := .setOnly } }

/-- `ILLEGAL_OPCODE_POLICY = skip`. -/
def withSkip (s : State) : State := { s with cfg := { defaultConfig with illegalOpcodePolicy := .skip } }

theorem test_hlt_V2 :
    sees (step ((placed 100 [0x01, 0xFF, 0xFF]).setReg 5 9)) (fun t => (t.status, t.pc, t.reg 5)) =
      some (.halted, 101, 9) := by decide
theorem test_ldi_V4 : sees (step (placed 0 [0x82, 0x07, 0xF4])) (fun t => (t.sp, t.pc)) = some (244, 3) := by decide
theorem test_ldi_V69 :
    sees (step (placed 253 [0x82, 0x00, 0x07])) (fun t => (t.reg 0, t.pc, t.status)) =
      some (7, 253, .faulted ⟨.outOfBoundsAddress, 253, 256⟩) := by decide
theorem test_prn_V8 :
    sees (step ((placed 0 [0x47, 0x03]).setReg 3 200)) (fun t => (t.out, t.pc)) = some ([200], 2) := by decide
theorem test_prn_V9 :
    sees (step (placed 0 [0x47, 0xFF])) (fun t => (t.out, t.status)) =
      some ([], .faulted ⟨.outOfBoundsAddress, 0, 255⟩) := by decide
theorem test_add_V10 :
    sees (step (((placed 0 [0xA0, 0x00, 0x01]).setReg 0 200).setReg 1 100)) (fun t => (t.reg 0, t.reg 1, t.pc)) =
      some (44, 100, 3) := by decide
theorem test_add_V15 :
    sees (step (placed 0 [0xA0, 0x09, 0x0A])) (fun t => t.status) =
      some (.faulted ⟨.outOfBoundsAddress, 0, 9⟩) := by decide
theorem test_mul_V12 :
    sees (step (((placed 0 [0xA2, 0x00, 0x01]).setReg 0 8).setReg 1 9)) (fun t => (t.reg 0, t.reg 1)) =
      some (72, 9) := by decide
theorem test_mul_V13 :
    sees (step ((placed 0 [0xA2, 0x02, 0x02]).setReg 2 16)) (fun t => t.reg 2) = some 0 := by decide
theorem test_sub_V18 :
    sees (step (withExt (((placed 0 [0xA1, 0x00, 0x01]).setReg 0 5).setReg 1 7))) (fun t => (t.reg 0, t.pc)) =
      some (254, 3) := by decide
theorem test_sub_V17 :
    sees (step (placed 0 [0xA1, 0x00, 0x01])) (fun t => t.status) =
      some (.faulted ⟨.illegalOpcode, 0, 161⟩) := by decide
theorem test_div_V19 :
    sees (step (withExt (((placed 0 [0xA3, 0x00, 0x01]).setReg 0 255).setReg 1 2))) (fun t => t.reg 0) =
      some 127 := by decide
theorem test_div_V21 :
    sees (step (withExt ((placed 0 [0xA3, 0x00, 0x01]).setReg 0 9))) (fun t => (t.reg 0, t.status)) =
      some (9, .faulted ⟨.divideByZero, 0, 1⟩) := by decide
theorem test_mod_V20 :
    sees (step (withExt (((placed 0 [0xA4, 0x00, 0x01]).setReg 0 255).setReg 1 16))) (fun t => t.reg 0) =
      some 15 := by decide
theorem test_mod_V22 :
    sees (step (withExt (placed 0 [0xA4, 0x00, 0x00]))) (fun t => t.status) =
      some (.faulted ⟨.divideByZero, 0, 0⟩) := by decide
theorem test_push_V26 :
    sees (step ((placed 0 [0x45, 0x07]).setReg 7 0xF4)) (fun t => (t.sp, t.cell 0xF3, t.pc)) =
      some (0xF3, 0xF3, 2) := by decide
theorem test_push_V29a :
    sees (step ((placed 0 [0x45, 0x09]).setReg 7 0xF4)) (fun t => (t.sp, t.cell 0xF3, t.status)) =
      some (0xF3, 0, .faulted ⟨.outOfBoundsAddress, 0, 9⟩) := by decide
theorem test_pop_V29c :
    sees (step (placed 0 [0x46, 0x01, 0x01])) (fun t => (t.reg 1, t.sp, t.pc)) = some (70, 1, 2) := by decide
theorem test_pop_V29 :
    sees (step (((placed 0 [0x46, 0x07]).setReg 7 0xF3).setMem (Memory.write [(0, 0x46), (1, 7)] 0xF3 0x20)))
      (fun t => t.sp) = some 0x21 := by decide
theorem test_call_V51 :
    sees (step ((placed 253 [0x50, 0x01]).setReg 7 0x80)) (fun t => (t.sp, t.cell 0x7F, t.pc)) =
      some (0x7F, 255, 0) := by decide
theorem test_call_V53 :
    sees (step ((placed 3 [0x50, 0xC8]).setReg 7 0xF4)) (fun t => (t.sp, t.cell 0xF3, t.pc, t.status)) =
      some (0xF3, 5, 3, .faulted ⟨.outOfBoundsAddress, 3, 200⟩) := by decide
theorem test_ret_V55 :
    sees (step (((placed 40 [0x11]).setReg 7 255).setMem [(40, 0x11), (255, 77)])) (fun t => (t.pc, t.sp)) =
      some (77, 0) := by decide
theorem test_cmp_V32 :
    sees (step ((((placed 0 [0xA7, 0x00, 0x01]).setReg 0 4).setReg 1 4).setFlags ⟨false, true, false⟩))
      (fun t => (t.flags, t.pc)) = some (⟨false, false, true⟩, 3) := by decide
theorem test_cmp_V34 :
    sees (step (withSetOnly ((((placed 0 [0xA7, 0x00, 0x01]).setReg 0 3).setReg 1 5).setFlags ⟨false, false, true⟩)))
      (fun t => t.flags) = some ⟨true, false, true⟩ := by decide
theorem test_jmp_V47 : sees (step ((placed 30 [0x54, 0x04]).setReg 4 200)) (fun t => t.pc) = some 200 := by decide
theorem test_jeq_V40 :
    sees (step (((placed 10 [0x55, 0x02]).setReg 2 19).setFlags ⟨false, false, true⟩)) (fun t => t.pc) =
      some 19 := by decide
theorem test_jeq_V45 : sees (step (placed 0 [0x55, 0x63])) (fun t => (t.pc, t.running)) = some (2, true) := by decide
theorem test_jne_V44 :
    sees (step (((placed 10 [0x56, 0x02]).setReg 2 19).setFlags ⟨true, false, true⟩)) (fun t => t.pc) =
      some 12 := by decide
theorem test_jne_V46 :
    sees (step (placed 0 [0x56, 0x63])) (fun t => t.status) =
      some (.faulted ⟨.outOfBoundsAddress, 0, 99⟩) := by decide

/-! ### The cycle (V60 to V71) and the launch -/

theorem test_fault_V60 :
    sees (step (placed 5 [0x00])) (fun t => (t.pc, t.status)) = some (5, .faulted ⟨.illegalOpcode, 5, 0⟩) := by decide
theorem test_skip_V63 : sees (step (withSkip (placed 5 [0x7F, 0x01, 0x01]))) (fun t => t.pc) = some 7 := by decide
theorem test_skip_V65 :
    sees (step (withSkip (placed 252 [0xFF]))) (fun t => (t.pc, t.status)) =
      some (252, .faulted ⟨.outOfBoundsAddress, 252, 256⟩) := by decide
theorem test_fetch_V68 :
    sees (step (placed 255 [0x01])) (fun t => t.status) = some (.faulted ⟨.outOfBoundsAddress, 255, 256⟩) := by decide
theorem test_fetch_V70 :
    sees (step (placed 254 [0xFF, 0x00])) (fun t => t.status) =
      some (.faulted ⟨.outOfBoundsAddress, 254, 256⟩) := by decide
theorem test_launch : sees (launch [0x82, 0x00, 0x08]) (fun t => (t.cell 2, t.cell 3, t.pc)) = some (8, 0, 0) := by
  decide
theorem test_word_runs_first_after_reset :
    sees (step (State.reset.withFetchWord 24 0b00000000_00000000_10100001)) (fun t => (t.pc, t.running)) =
      some (3, true) := by decide

/-! ### Witnesses: a concrete state and operands for the hypotheses of each statement -/

/-- A state at an address. -/
def atPc (pc : Byte) : State := { State.reset with pc := pc }

theorem witness_EncodedInstructionsDecodeBack :
    tableConfig.opcodes.wf = true ∧ tableConfig.dispatches (Instr.mod 255 0).op = true ∧
    defaultConfig.dispatches Instr.hlt.op = true := by decide

theorem witness_DecodedBytesAreTheEncoding :
    decode defaultConfig [0x82, 8, 255, 1] = .ok (.ldi 8 255, [1]) := by rfl

theorem witness_LengthFormulaCountsConsumedBytes :
    defaultConfig.opcodes.wf = true ∧ decode defaultConfig [0x11, 1] = .ok (.ret, [1]) :=
  ⟨by decide, rfl⟩

theorem witness_StepRunsDecodedInstruction :
    (placed 253 [0x01]).status = .running ∧ (placed 253 [0x01]).pc.toNat ≤ 253 ∧
    decode (placed 253 [0x01]).cfg [(placed 253 [0x01]).cell 253, (placed 253 [0x01]).cell 254, (placed 253 [0x01]).cell 255] =
      .ok (.hlt, [0, 0]) :=
  ⟨rfl, by decide, rfl⟩

theorem witness_FetchWordRunsDecodedInstruction :
    (atPc 253).status = .running ∧ (atPc 253).pc.toNat ≤ 253 ∧ (atPc 253).cfg.opcodes = OpcodeMap.default ∧
    decodeTableWord 24 0x0100A3 = some (.div 0 1) := by decide

theorem witness_FetchPastEndOfMemoryFaults :
    (atPc 254).status = .running ∧ 254 ≤ (atPc 254).pc.toNat ∧ 254 ≤ (atPc 255).pc.toNat := by decide

theorem witness_UnboundOpcodeFaultsOrSkips :
    ((atPc 253).status = .running ∧ (atPc 253).pc.toNat ≤ 253 ∧ (atPc 253).cfg.lookup ((atPc 253).cell 253) = none ∧
      (atPc 253).cfg.illegalOpcodePolicy = .fault) ∧
    ((withSkip (atPc 253)).cfg.lookup ((withSkip (atPc 253)).cell 253) = none ∧
      (withSkip (atPc 253)).cfg.illegalOpcodePolicy = .skip ∧
      (withSkip (atPc 253)).pc.toNat + opcodeLength ((withSkip (atPc 253)).cell 253) ≤ 255) ∧
    ((withSkip (placed 252 [0xFF])).cfg.lookup ((placed 252 [0xFF]).cell 252) = none ∧
      255 < (placed 252 [0xFF]).pc.toNat + opcodeLength ((placed 252 [0xFF]).cell 252)) := by decide

theorem witness_HltHaltsAndAdvances : (atPc 253).pc.toNat ≤ 253 := by decide

/-- The clauses of the register and immediate forms at their boundary values: R7 and R0, the index 8 and 255, the
addresses 252, 253 and 250. -/
theorem witness_LdiLoadsImmediate :
    (Names 7 7 ∧ (atPc 252).pc.toNat ≤ 252) ∧ (Names 0 0 ∧ (atPc 253).pc.toNat = 253) ∧
    8 ≤ (8 : Byte).toNat ∧ 8 ≤ (255 : Byte).toNat := by decide

theorem witness_PrnEmitsRegister :
    (Names 7 7 ∧ (atPc 253).pc.toNat ≤ 253) ∧ 8 ≤ (8 : Byte).toNat ∧ (Names 0 0 ∧ (atPc 250).pc.toNat ≤ 250) := by
  decide

theorem witness_AluMatchesIntegerArithmetic : (1 : Byte).toNat ≠ 0 ∧ (0 : Byte).toNat = 0 := by decide

theorem witness_AddWritesSum :
    (Names 7 7 ∧ Names 0 0 ∧ (atPc 252).pc.toNat ≤ 252) ∧ (atPc 253).pc.toNat = 253 ∧ 8 ≤ (8 : Byte).toNat ∧
    (Names 7 7 ∧ 8 ≤ (255 : Byte).toNat) := by decide

theorem witness_MulWritesLowProduct :
    (Names 7 7 ∧ Names 7 7 ∧ (atPc 252).pc.toNat ≤ 252) ∧ (atPc 253).pc.toNat = 253 ∧ 8 ≤ (8 : Byte).toNat ∧
    (Names 0 0 ∧ 8 ≤ (8 : Byte).toNat) := by decide

theorem witness_SubWritesDifference :
    (Names 0 0 ∧ Names 7 7 ∧ (atPc 252).pc.toNat ≤ 252) ∧ (atPc 253).pc.toNat = 253 ∧ 8 ≤ (8 : Byte).toNat ∧
    (Names 7 7 ∧ 8 ≤ (8 : Byte).toNat) := by decide

theorem witness_DivWritesQuotient :
    (Names 0 0 ∧ Names 7 7 ∧ ((atPc 252).setReg 7 1).regs.get 7 ≠ 0 ∧ ((atPc 252).setReg 7 1).pc.toNat ≤ 252) ∧
    (((atPc 253).setReg 7 1).regs.get 7 ≠ 0 ∧ ((atPc 253).setReg 7 1).pc.toNat = 253) ∧
    (Names 7 7 ∧ (atPc 252).regs.get 7 = 0) ∧ 8 ≤ (8 : Byte).toNat ∧ (Names 7 7 ∧ 8 ≤ (255 : Byte).toNat) := by
  decide

theorem witness_ModWritesRemainder :
    (Names 7 7 ∧ Names 0 0 ∧ ((atPc 252).setReg 0 255).regs.get 0 ≠ 0 ∧ ((atPc 252).setReg 0 255).pc.toNat ≤ 252) ∧
    (((atPc 253).setReg 0 255).regs.get 0 ≠ 0 ∧ ((atPc 253).setReg 0 255).pc.toNat = 253) ∧
    (Names 0 0 ∧ (atPc 253).regs.get 0 = 0) ∧ 8 ≤ (8 : Byte).toNat ∧ (Names 0 0 ∧ 8 ≤ (8 : Byte).toNat) := by
  decide

theorem witness_PushStoresBelowStackPointer :
    (Names 7 7 ∧ (atPc 253).pc.toNat ≤ 253) ∧ (Names 0 0 ∧ (atPc 0).pc.toNat ≤ 253) ∧ 8 ≤ (8 : Byte).toNat := by
  decide

theorem witness_PopLoadsAndIncrements :
    (Names 6 6 ∧ (6 : RegIx) ≠ 7 ∧ (atPc 253).pc.toNat ≤ 253) ∧ (Names 7 7 ∧ (atPc 253).pc.toNat ≤ 253) ∧
    8 ≤ (8 : Byte).toNat := by decide

theorem witness_CallStoresReturnAddress :
    (Names 7 7 ∧ (atPc 253).pc.toNat ≤ 253) ∧ (8 ≤ (8 : Byte).toNat ∧ (atPc 253).pc.toNat ≤ 253) := by decide

theorem witness_PushThenPopRestores : Names 6 6 ∧ (6 : RegIx) ≠ 7 ∧ (atPc 251).pc.toNat ≤ 251 := by decide

theorem witness_CallThenRetReturns :
    Names 7 7 ∧ (atPc 253).pc.toNat ≤ 253 ∧
    ∃ t, exec (.call 7) (atPc 253) = .next t ∧ t.sp = t.sp ∧ t.cell t.sp.toNat = t.cell t.sp.toNat :=
  ⟨rfl, by decide, _, rfl, rfl, rfl⟩

theorem witness_CmpSetsFlagsByPolicy :
    (Names 7 7 ∧ Names 0 0 ∧ (atPc 252).cfg.cmpFlagPolicy = .clearThenSet ∧ (atPc 252).pc.toNat ≤ 252) ∧
    ((withSetOnly (atPc 253)).cfg.cmpFlagPolicy = .setOnly ∧ (withSetOnly (atPc 253)).pc.toNat = 253) ∧
    8 ≤ (8 : Byte).toNat ∧ (Names 7 7 ∧ 8 ≤ (8 : Byte).toNat) := by decide

theorem witness_JmpGoesToRegister :
    Names 7 7 ∧ (atPc 0).regs.get 7 = (atPc 0).pc ∧ 8 ≤ (8 : Byte).toNat ∧
    (((atPc 0).setReg 7 254).status = .running ∧ 254 ≤ (((atPc 0).setReg 7 254).regs.get 7).toNat) := by decide

theorem witness_JeqJumpsWhenEqualSet :
    ((atPc 0).setFlags ⟨false, false, true⟩).flags.e = true ∧ Names 7 7 ∧ 8 ≤ (8 : Byte).toNat ∧
    ((atPc 253).flags.e = false ∧ (atPc 253).pc.toNat ≤ 253) := by decide

theorem witness_JneJumpsWhenEqualClear :
    (atPc 0).flags.e = false ∧ Names 7 7 ∧ 8 ≤ (8 : Byte).toNat ∧
    (((atPc 253).setFlags ⟨false, false, true⟩).flags.e = true ∧
      ((atPc 253).setFlags ⟨false, false, true⟩).pc.toNat ≤ 253) := by decide

theorem witness_ExactlyOneOfJeqJneJumps : Names 7 7 ∧ (atPc 253).pc.toNat ≤ 253 := by decide

theorem witness_CmpLeavesExactlyOneFlag :
    (atPc 253).cfg.cmpFlagPolicy = .clearThenSet ∧ (7 : Byte).toNat < 8 ∧ (0 : Byte).toNat < 8 ∧
    ∃ t, exec (.cmp 7 0) (atPc 253) = .next t :=
  ⟨rfl, by decide, by decide, _, rfl⟩

theorem witness_FlagsAccumulateUnderSetOnly :
    (withSetOnly (placed 0 [0xA7])).cfg.cmpFlagPolicy = .setOnly ∧
    ∃ t, step (withSetOnly ((placed 0 [0xA7]).setFlags ⟨true, true, false⟩)) = .next t ∧ t.flags = ⟨true, true, true⟩ :=
  ⟨rfl, _, rfl, by decide⟩

theorem witness_RegisterWritingFrame :
    (∃ t, exec (.ldi 7 255) (atPc 253) = .next t) ∧ (∃ t, exec (.add 7 0) (atPc 0) = .next t) ∧
    (∃ t, exec (.sub 8 0) (atPc 0) = .next t) ∧ (∃ t, exec (.mul 0 8) (atPc 0) = .next t) ∧
    (∃ t, exec (.div 0 0) (atPc 0) = .next t) ∧ (∃ t, exec (.mod 0 1) ((atPc 0).setReg 1 3) = .next t) ∧
    ¬ Names 7 0 :=
  ⟨⟨_, rfl⟩, ⟨_, rfl⟩, ⟨_, rfl⟩, ⟨_, rfl⟩, ⟨_, rfl⟩, ⟨_, rfl⟩, by decide⟩

theorem witness_RegisterPreservingFrame :
    (∃ t, exec .hlt (atPc 253) = .next t) ∧ (∃ t, exec (.prn 7) (atPc 253) = .next t) ∧
    (∃ t, exec (.cmp 7 0) (atPc 253) = .next t) ∧ (∃ t, exec (.jmp 8) (atPc 0) = .next t) ∧
    (∃ t, exec (.jeq 8) (atPc 0) = .next t) ∧ (∃ t, exec (.jne 8) (atPc 0) = .next t) :=
  ⟨⟨_, rfl⟩, ⟨_, rfl⟩, ⟨_, rfl⟩, ⟨_, rfl⟩, ⟨_, rfl⟩, ⟨_, rfl⟩⟩

theorem witness_StoringFrame :
    (∃ t, exec (.push 7) (atPc 253) = .next t) ∧ (∃ t, exec (.push 8) (atPc 253) = .next t) ∧
    (∃ t, exec (.call 7) (atPc 253) = .next t) ∧ 255 = ((atPc 253).sp - 1).toNat ∧ 254 ≠ 255 ∧
    8 ≤ (8 : Byte).toNat :=
  ⟨⟨_, rfl⟩, ⟨_, rfl⟩, ⟨_, rfl⟩, by decide, by decide, by decide⟩

theorem witness_PopRetFrame :
    (∃ t, exec (.pop 7) (atPc 253) = .next t) ∧ (∃ t, exec (.pop 8) (atPc 253) = .next t) ∧
    (∃ t, exec .ret (atPc 255) = .next t) ∧ (6 : RegIx) ≠ 7 ∧ ¬ Names 7 6 :=
  ⟨⟨_, rfl⟩, ⟨_, rfl⟩, ⟨_, rfl⟩, by decide, by decide⟩

/-- One faulting cycle for each of the four shapes. -/
theorem witness_FaultingCycleIsPrecise :
    (placed 5 [0x00]).status = .running ∧
    (∃ t r, step (placed 5 [0x00]) = .next t ∧ t.status = .faulted r) ∧
    (∃ t r, step (placed 253 [0x45, 8]) = .next t ∧ t.status = .faulted r) ∧
    (∃ t r, step (placed 253 [0x50, 8]) = .next t ∧ t.status = .faulted r) ∧
    (∃ t r, step (placed 253 [0x82, 0, 7]) = .next t ∧ t.status = .faulted r) :=
  ⟨rfl, ⟨_, _, rfl, rfl⟩, ⟨_, _, rfl, rfl⟩, ⟨_, _, rfl, rfl⟩, ⟨_, _, rfl, rfl⟩⟩

theorem witness_FlagsWrittenByCmpReadByJeqJne :
    (∃ t, step (placed 0 [0xA7]) = .next t ∧ t.flags ≠ (placed 0 [0xA7]).flags) ∧
    (⟨true, true, false⟩ : Flags).e = (placed 0 [0x55]).flags.e ∧
    ((∀ ra, Instr.hlt ≠ .jeq ra) ∧ (∀ ra, Instr.hlt ≠ .jne ra)) :=
  ⟨⟨_, rfl, by decide⟩, rfl, by simp, by simp⟩

theorem witness_MemoryChangesOnlyAtTheNewStackTop :
    (∃ t, step ((placed 0 [0x45, 0]).setReg 0 5) = .next t ∧ t.cell 255 ≠ (placed 0 [0x45, 0]).cell 255) ∧
    (∃ t, step (placed 0 [0x50, 0]) = .next t ∧ t.cell 255 ≠ (placed 0 [0x50, 0]).cell 255) :=
  ⟨⟨_, rfl, by decide⟩, ⟨_, rfl, by decide⟩⟩

theorem witness_OutputGrowsOnlyByPrn :
    ∃ t, step (placed 253 [0x47, 7]) = .next t ∧ t.out ≠ (placed 253 [0x47, 7]).out :=
  ⟨_, rfl, by decide⟩

theorem witness_RegistersChangeOnlyWhereNamed :
    (∃ t, step (placed 253 [0x82, 6, 7]) = .next t ∧ t.reg 6 ≠ (placed 253 [0x82, 6, 7]).reg 6) ∧
    (∃ t, step (placed 0 [0x11]) = .next t ∧ t.reg 7 ≠ (placed 0 [0x11]).reg 7) :=
  ⟨⟨_, rfl, by decide⟩, ⟨_, rfl, by decide⟩⟩

theorem witness_HaltedOnlyByHlt :
    (placed 253 [0x01]).status = .running ∧ ∃ t, step (placed 253 [0x01]) = .next t ∧ t.status = .halted :=
  ⟨rfl, _, rfl, rfl⟩

theorem witness_NonControlFlowAdvancesByLength :
    (placed 253 [0x47, 7]).cfg.opcodes.wf = true ∧ (placed 253 [0x47, 7]).current? = some (.prn 7) ∧
    (Instr.prn 7).op.controlFlow = false ∧ (∃ t, step (placed 253 [0x47, 7]) = .next t) ∧
    (placed 253 [0x82, 7]).current? = some (.ldi 7 0) ∧ ∃ t, step (placed 253 [0x82, 7]) = .next t :=
  ⟨by decide, by decide, rfl, ⟨_, rfl⟩, by decide, _, rfl⟩

theorem witness_ConfigurationIsConstant : ∃ t, step (withExt (placed 0 [0xA1])) = .next t := ⟨_, rfl⟩

theorem witness_StepAlwaysAnswersNext : ∃ t r, step (atPc 255) = .next t ∧ t.status = .faulted r :=
  ⟨_, _, rfl, rfl⟩

theorem witness_StoppedEngineIsFrozen :
    ((atPc 0).setStatus .halted).status ≠ .running ∧ ((atPc 0).raised .illegalOpcode 0).status ≠ .running := by
  decide

theorem witness_InvariantKeptByStep : State.reset.Inv ∧ ∃ t, step State.reset = .next t :=
  ⟨⟨rfl, trivial⟩, _, rfl⟩

theorem witness_CanonicalMemoriesReadingAlikeAreEqual :
    Memory.wf [(0, 1), (255, 2)] = true ∧
    ∀ a : Nat, Memory.read [(0, 1), (255, 2)] a = Memory.read (Memory.write [(0, 1)] 255 2) a :=
  ⟨by decide, fun _ => rfl⟩

theorem witness_StoreIsSeenByTheNextFetch :
    let s := (((placed 251 [0x45, 0]).setReg 0 0x01).setReg 7 254)
    s.current? = some (.push 0) ∧ Names 0 0 ∧ (0 : RegIx) ≠ 7 ∧ s.pc.toNat ≤ 251 ∧ s.sp - 1 = s.pc + 2 ∧
      s.cfg.lookup (s.reg 0) = some .hlt := by decide

theorem witness_TraceShowsTheFetchedCells : (atPc 253).pc.toNat ≤ 253 := by decide

theorem witness_LaunchPlacesProgram :
    (List.replicate 256 (1 : Byte)).length ≤ 256 ∧ 256 < (List.replicate 257 (1 : Byte)).length := by
  rw [List.length_replicate, List.length_replicate]
  decide

theorem witness_UnloadedMemoryFaultsOrSlides :
    ((atPc 253).status = .running ∧ (atPc 253).cfg.lookup 0 = none ∧
      (atPc 253).cfg.illegalOpcodePolicy = .fault ∧ (atPc 253).pc.toNat ≤ 253 ∧ (atPc 253).cell 253 = 0) ∧
    ((withSkip (atPc 254)).status = .running ∧ (withSkip (atPc 254)).cfg.lookup 0 = none ∧
      (withSkip (atPc 254)).cfg.illegalOpcodePolicy = .skip ∧ (withSkip (atPc 254)).pc.toNat ≤ 254) ∧
    ∀ a : Nat, (withSkip (atPc 254)).cell a = 0 :=
  ⟨by decide, by decide, fun _ => rfl⟩

end Sys2Proof.Tests
end

/-! ### The configuration is constant (R4, R93) -/

section
namespace Sys2Proof.Machine

/-- Whether it moves `pc` or faults, the engine's advance keeps everything else but the status (R17, R172). -/
theorem advance_next_keeps {len : Nat} {s t : State} (h : advance len s = .next t) :
    t.regs = s.regs ∧ t.flags = s.flags ∧ t.mem = s.mem ∧ t.out = s.out ∧ t.cfg = s.cfg := by
  rcases advance_next h with ⟨-, rfl⟩ | ⟨-, rfl⟩ <;> exact ⟨rfl, rfl, rfl, rfl, rfl⟩

theorem advance_next_cfg {len : Nat} {s t : State} (h : advance len s = .next t) : t.cfg = s.cfg := by
  obtain ⟨-, -, -, -, hcfg⟩ := advance_next_keeps h
  exact hcfg

theorem arith_next_cfg {op : AluOp} {ra rb : Byte} {s t : State} (h : arith op ra rb s = .next t) :
    t.cfg = s.cfg := by
  rcases arith_next h with ⟨a, b, v, -, -, -, h⟩ | ⟨a, b, -, -, -, rfl⟩ | ⟨-, rfl⟩ | ⟨a, -, -, rfl⟩
  · simpa using advance_next_cfg h
  all_goals rfl

theorem jumpTo_next_cfg {ra : Byte} {s t : State} (h : jumpTo ra s = .next t) : t.cfg = s.cfg := by
  rcases jumpTo_next h with ⟨a, -, rfl⟩ | ⟨-, rfl⟩ <;> rfl

/-- No instruction writes a parameter: every update a meaning makes before its advance, its jump or its fault is of
another field. -/
theorem exec_next_cfg {i : Instr} {s t : State} (h : exec i s = .next t) : t.cfg = s.cfg := by
  cases i with
  | hlt => simpa using advance_next_cfg h
  | ldi ra imm =>
    rcases execLdi_next h with ⟨a, -, h⟩ | ⟨-, rfl⟩
    · simpa using advance_next_cfg h
    · rfl
  | prn ra =>
    rcases execPrn_next h with ⟨a, -, h⟩ | ⟨-, rfl⟩
    · simpa using advance_next_cfg h
    · rfl
  | add ra rb => exact arith_next_cfg (op := .add) h
  | sub ra rb => exact arith_next_cfg (op := .sub) h
  | mul ra rb => exact arith_next_cfg (op := .mul) h
  | div ra rb => exact arith_next_cfg (op := .div) h
  | mod ra rb => exact arith_next_cfg (op := .mod) h
  | cmp ra rb =>
    rcases execCmp_next h with ⟨a, b, -, -, h⟩ | ⟨-, rfl⟩ | ⟨a, -, -, rfl⟩
    · simpa using advance_next_cfg h
    all_goals rfl
  | push ra =>
    rcases execPush_next h with ⟨a, -, h⟩ | ⟨-, rfl⟩
    · simpa using advance_next_cfg h
    · rfl
  | pop ra =>
    rcases execPop_next h with ⟨a, -, h⟩ | ⟨-, rfl⟩
    · simpa using advance_next_cfg h
    · rfl
  | call ra => rcases execCall_next h with ⟨a, -, rfl⟩ | ⟨-, rfl⟩ <;> rfl
  | ret =>
    rw [exec_ret, execRet_eq] at h
    cases h
    rfl
  | jmp ra => exact jumpTo_next_cfg h
  | jeq ra =>
    rcases execJeq_next h with ⟨-, h⟩ | ⟨-, h⟩
    · exact jumpTo_next_cfg h
    · exact advance_next_cfg h
  | jne ra =>
    rcases execJne_next h with ⟨-, h⟩ | ⟨-, h⟩
    · exact jumpTo_next_cfg h
    · exact advance_next_cfg h

theorem illegalOpcode_next_cfg {ir : Byte} {s t : State} (h : illegalOpcode ir s = .next t) : t.cfg = s.cfg := by
  rcases illegalOpcode_next h with ⟨-, rfl⟩ | ⟨-, h⟩
  · rfl
  · exact advance_next_cfg h

/-- Settles O44, by the four things a step can do: stand still, fault in the fetch, run an instruction, or apply
the illegal-opcode rule. -/
theorem configurationIsConstant : Obligations.ConfigurationIsConstant := by
  intro s t h
  rcases step_next h with ⟨-, rfl⟩ | ⟨-, -, rfl⟩ | ⟨-, -, o, -, h⟩ | ⟨-, -, -, h⟩
  · rfl
  · rfl
  · exact exec_next_cfg h
  · exact illegalOpcode_next_cfg h

end Sys2Proof.Machine
end

/-! ### What an instruction does before its cycle ends, and how the cycle ends (R84, R85, R88)

`exec_next` is the one case analysis over the instructions; the frames and the rules about the whole machine are read
off the few shapes it lists. -/

section
namespace Sys2Proof.Machine

/-- The registers an instruction may write (R12, R14). -/
def WritesReg (i : Instr) (j : RegIx) : Prop :=
  match i with
  | .ldi ra _ | .add ra _ | .sub ra _ | .mul ra _ | .div ra _ | .mod ra _ => Names ra j
  | .pop ra => Names ra j ∨ j = spIx
  | .push _ | .call _ | .ret => j = spIx
  | .hlt | .prn _ | .cmp _ _ | .jmp _ | .jeq _ | .jne _ => False

/-- `Effect s i u`: from `s`, the instruction `i` has made `u` by the time its cycle advances, jumps or faults. -/
inductive Effect (s : State) : Instr → State → Prop where
  | nothing {i : Instr} : Effect s i s
  | halted : Effect s .hlt (s.setStatus .halted)
  | register {i : Instr} {a : RegIx} (h : WritesReg i a) (v : Byte) : Effect s i (s.setReg a v)
  | popped {ra : Byte} {a : RegIx} (h : Names ra a) (v w : Byte) : Effect s (.pop ra) ((s.setReg a v).setSp w)
  | emitted {ra : Byte} {a : RegIx} (h : Names ra a) : Effect s (.prn ra) (s.emit (s.reg a))
  | compared {ra rb : Byte} (f : Flags) : Effect s (.cmp ra rb) (s.setFlags f)
  | pushed {ra : Byte} {a : RegIx} (h : Names ra a) (v : Byte) :
      Effect s (.push ra) ((s.setSp (s.sp - 1)).setMem (s.mem.write (s.sp - 1).toNat v))
  | called {ra : Byte} (v : Byte) :
      Effect s (.call ra) ((s.setSp (s.sp - 1)).setMem (s.mem.write (s.sp - 1).toNat v))

/-- `Ends i u t`: the cycle of `i` ends in `t` with nothing but `pc` or the status left to change in `u`: by the
advance past the instruction's own bytes, by a fault, or, for a control-flow opcode, by a jump. -/
inductive Ends (i : Instr) (u : State) : State → Prop where
  | advanced (h : u.pc.toNat + (i.operands.length + 1) < memSize) :
      Ends i u (u.setPc (BitVec.ofNat 8 (u.pc.toNat + (i.operands.length + 1))))
  | raised (c : Cause) (n : Nat) : Ends i u (u.raised c n)
  | jumped (h : i.op.controlFlow = true) (a : Byte) : Ends i u (u.setPc a)

theorem Ends.of_advance {i : Instr} {u t : State} (h : advance (i.operands.length + 1) u = .next t) : Ends i u t := by
  rcases advance_next h with ⟨hlt, rfl⟩ | ⟨-, rfl⟩
  · exact .advanced hlt
  · exact .raised _ _

theorem Ends.of_jumpTo {i : Instr} {ra : Byte} {s t : State} (hi : i.op.controlFlow = true)
    (h : jumpTo ra s = .next t) : Ends i s t := by
  rcases jumpTo_next h with ⟨a, -, rfl⟩ | ⟨-, rfl⟩
  · exact .jumped hi _
  · exact .raised _ _

/-- The five arithmetic instructions write register A and advance, or fault with nothing written (R123). -/
theorem arith_effect {i : Instr} {op : AluOp} {ra rb : Byte} {s t : State} (hw : ∀ a, Names ra a → WritesReg i a)
    (hlen : i.operands.length = 2) (h : arith op ra rb s = .next t) : ∃ u, Effect s i u ∧ Ends i u t := by
  rcases arith_next h with ⟨a, b, v, ha, -, -, h⟩ | ⟨a, b, -, -, -, rfl⟩ | ⟨-, rfl⟩ | ⟨a, -, -, rfl⟩
  · exact ⟨_, .register (hw a ha) v, .of_advance (by rwa [hlen])⟩
  all_goals exact ⟨_, .nothing, .raised _ _⟩

/-- Everything `exec` can do, for every instruction: one of the effects, then one of the three ends of a cycle. -/
theorem exec_next {i : Instr} {s t : State} (h : exec i s = .next t) : ∃ u, Effect s i u ∧ Ends i u t := by
  cases i with
  | hlt => exact ⟨_, .halted, .of_advance h⟩
  | ldi ra imm =>
    rcases execLdi_next h with ⟨a, ha, h⟩ | ⟨-, rfl⟩
    · exact ⟨_, .register (i := .ldi ra imm) ha imm, .of_advance h⟩
    · exact ⟨_, .nothing, .raised _ _⟩
  | prn ra =>
    rcases execPrn_next h with ⟨a, ha, h⟩ | ⟨-, rfl⟩
    · exact ⟨_, .emitted ha, .of_advance h⟩
    · exact ⟨_, .nothing, .raised _ _⟩
  | add ra rb => exact arith_effect (op := .add) (fun _ ha => ha) rfl h
  | sub ra rb => exact arith_effect (op := .sub) (fun _ ha => ha) rfl h
  | mul ra rb => exact arith_effect (op := .mul) (fun _ ha => ha) rfl h
  | div ra rb => exact arith_effect (op := .div) (fun _ ha => ha) rfl h
  | mod ra rb => exact arith_effect (op := .mod) (fun _ ha => ha) rfl h
  | cmp ra rb =>
    rcases execCmp_next h with ⟨a, b, -, -, h⟩ | ⟨-, rfl⟩ | ⟨a, -, -, rfl⟩
    · exact ⟨_, .compared _, .of_advance h⟩
    all_goals exact ⟨_, .nothing, .raised _ _⟩
  | push ra =>
    rcases execPush_next h with ⟨a, ha, h⟩ | ⟨-, rfl⟩
    · exact ⟨_, .pushed ha _, .of_advance h⟩
    · exact ⟨_, .register (i := .push ra) (a := spIx) rfl (s.sp - 1), .raised _ _⟩
  | pop ra =>
    rcases execPop_next h with ⟨a, ha, h⟩ | ⟨-, rfl⟩
    · exact ⟨_, .popped ha _ _, .of_advance h⟩
    · exact ⟨_, .nothing, .raised _ _⟩
  | call ra =>
    rcases execCall_next h with ⟨a, -, rfl⟩ | ⟨-, rfl⟩
    · exact ⟨_, .called _, .jumped rfl _⟩
    · exact ⟨_, .called _, .raised _ _⟩
  | ret =>
    rw [exec_ret, execRet_eq] at h
    cases h
    exact ⟨_, .register (i := .ret) (a := spIx) rfl (s.sp + 1), .jumped rfl (s.cell s.sp.toNat)⟩
  | jmp ra => exact ⟨_, .nothing, .of_jumpTo rfl h⟩
  | jeq ra =>
    rcases execJeq_next h with ⟨-, h⟩ | ⟨-, h⟩
    · exact ⟨_, .nothing, .of_jumpTo rfl h⟩
    · exact ⟨_, .nothing, .of_advance h⟩
  | jne ra =>
    rcases execJne_next h with ⟨-, h⟩ | ⟨-, h⟩
    · exact ⟨_, .nothing, .of_jumpTo rfl h⟩
    · exact ⟨_, .nothing, .of_advance h⟩

/-! The ends of a cycle. -/

theorem Ends.keeps {i : Instr} {u t : State} (h : Ends i u t) :
    t.regs = u.regs ∧ t.flags = u.flags ∧ t.mem = u.mem ∧ t.out = u.out := by
  cases h <;> exact ⟨rfl, rfl, rfl, rfl⟩

theorem Ends.status {i : Instr} {u t : State} (h : Ends i u t) :
    t.status = u.status ∨ ∃ r, t.status = .faulted r := by
  cases h with
  | advanced | jumped => exact .inl rfl
  | raised c n => exact .inr ⟨_, rfl⟩

/-! The effects, field by field. -/

theorem Effect.reg {i : Instr} {s u : State} (h : Effect s i u) (j : RegIx) :
    u.reg j = s.reg j ∨ WritesReg i j := by
  cases h with
  | nothing | halted | emitted | compared => exact .inl rfl
  | @register _ a ha v =>
    by_cases hj : j = a
    · exact .inr (hj ▸ ha)
    · exact .inl (State.reg_setReg_other s v hj)
  | @popped ra a ha v w =>
    by_cases hj : j = spIx
    · exact .inr (.inr hj)
    · by_cases hja : j = a
      · exact .inr (.inl (hja ▸ ha))
      · exact .inl ((State.reg_setSp_other _ w hj).trans (State.reg_setReg_other s v hja))
  | pushed | called =>
    by_cases hj : j = spIx
    · exact .inr hj
    · exact .inl (State.reg_setSp_other s _ hj)

theorem Effect.flags {i : Instr} {s u : State} (h : Effect s i u) :
    u.flags = s.flags ∨ ∃ ra rb, i = .cmp ra rb := by
  cases h with
  | compared => exact .inr ⟨_, _, rfl⟩
  | _ => exact .inl rfl

theorem Effect.out {i : Instr} {s u : State} (h : Effect s i u) :
    u.out = s.out ∨ ∃ ra a, i = .prn ra ∧ Names ra a ∧ u.out = s.out ++ [s.reg a] := by
  cases h with
  | emitted ha => exact .inr ⟨_, _, rfl, ha, rfl⟩
  | _ => exact .inl rfl

theorem Effect.cell {i : Instr} {s u : State} (h : Effect s i u) (b : Nat) :
    u.cell b = s.cell b ∨
      (b = (s.sp - 1).toNat ∧ ∃ ra, (i = .push ra ∧ ra.toNat < 8) ∨ i = .call ra) := by
  cases h with
  | @pushed ra a ha v =>
    by_cases hb : b = (s.sp - 1).toNat
    · exact .inr ⟨hb, ra, .inl ⟨rfl, ha ▸ a.isLt⟩⟩
    · exact .inl (Memory.read_write_other s.mem v hb)
  | @called ra v =>
    by_cases hb : b = (s.sp - 1).toNat
    · exact .inr ⟨hb, ra, .inr rfl⟩
    · exact .inl (Memory.read_write_other s.mem v hb)
  | _ => exact .inl rfl

theorem Effect.status {i : Instr} {s u : State} (h : Effect s i u) :
    u.status = s.status ∨ (i = .hlt ∧ u.status = .halted) := by
  cases h with
  | halted => exact .inr ⟨rfl, rfl⟩
  | _ => exact .inl rfl

theorem Effect.pc {i : Instr} {s u : State} (h : Effect s i u) : u.pc = s.pc := by
  cases h <;> rfl

/-! ### Frames: what exec leaves unchanged, field by field, and which instruction may change it -/

theorem exec_next_reg {i : Instr} {s t : State} (h : exec i s = .next t) (j : RegIx) :
    t.reg j = s.reg j ∨ WritesReg i j := by
  obtain ⟨u, hu, ht⟩ := exec_next h
  obtain ⟨hregs, -, -, -⟩ := ht.keeps
  have htu : t.reg j = u.reg j := congrArg (Regs.get · j) hregs
  exact htu ▸ hu.reg j

theorem exec_next_flags {i : Instr} {s t : State} (h : exec i s = .next t) :
    t.flags = s.flags ∨ ∃ ra rb, i = .cmp ra rb := by
  obtain ⟨u, hu, ht⟩ := exec_next h
  obtain ⟨-, hflags, -, -⟩ := ht.keeps
  exact hflags ▸ hu.flags

theorem exec_next_cell {i : Instr} {s t : State} (h : exec i s = .next t) (b : Nat) :
    t.cell b = s.cell b ∨
      (b = (s.sp - 1).toNat ∧ ∃ ra, (i = .push ra ∧ ra.toNat < 8) ∨ i = .call ra) := by
  obtain ⟨u, hu, ht⟩ := exec_next h
  obtain ⟨-, -, hmem, -⟩ := ht.keeps
  have htu : t.cell b = u.cell b := congrArg (Memory.read · b) hmem
  exact htu ▸ hu.cell b

theorem exec_next_out {i : Instr} {s t : State} (h : exec i s = .next t) :
    t.out = s.out ∨ ∃ ra a, i = .prn ra ∧ Names ra a ∧ t.out = s.out ++ [s.reg a] := by
  obtain ⟨u, hu, ht⟩ := exec_next h
  obtain ⟨-, -, -, hout⟩ := ht.keeps
  exact hout ▸ hu.out

theorem exec_next_status {i : Instr} {s t : State} (h : exec i s = .next t) :
    (t.status = s.status ∨ ∃ r, t.status = .faulted r) ∨ i = .hlt := by
  obtain ⟨u, hu, ht⟩ := exec_next h
  rcases ht.status with htu | hr
  · rcases hu.status with hus | ⟨hi, -⟩
    · exact .inl (.inl (htu.trans hus))
    · exact .inr hi
  · exact .inl (.inr hr)

/-- Settles O32: none of the six is CMP, PUSH, CALL, PRN or HLT, and each writes the register A names. -/
theorem registerWritingFrame : Obligations.RegisterWritingFrame := by
  intro s t i ra x hi h
  rcases hi with rfl | rfl | rfl | rfl | rfl | rfl <;>
    exact ⟨fun j hj => (exec_next_reg h j).resolve_right hj, (exec_next_flags h).resolve_right (by simp),
      fun b => (exec_next_cell h b).resolve_right (by simp), (exec_next_out h).resolve_right (by simp),
      exec_next_cfg h, (exec_next_status h).resolve_right (by simp)⟩

/-- Settles O33: none of the six writes a register or stores; of a field's one writer the statement says nothing. -/
theorem registerPreservingFrame : Obligations.RegisterPreservingFrame := by
  intro s t i ra rb hi h
  rcases hi with rfl | rfl | rfl | rfl | rfl | rfl <;>
    exact ⟨fun j => (exec_next_reg h j).resolve_right id, fun b => (exec_next_cell h b).resolve_right (by simp),
      exec_next_cfg h, fun hne => (exec_next_flags h).resolve_right (by simp_all),
      fun hne => (exec_next_out h).resolve_right (by simp_all), (exec_next_status h).resolve_right⟩

/-- Settles O34: PUSH and CALL write SP and store at the decremented SP, PUSH only with an operand that names a
register. -/
theorem storingFrame : Obligations.StoringFrame := by
  intro s t i ra hi h
  have hpush : i = .push ra → 8 ≤ ra.toNat → ∀ b, t.cell b = s.cell b := by
    rintro rfl hra b
    refine (exec_next_cell h b).resolve_right ?_
    rintro ⟨-, _, ⟨⟨⟩, hlt⟩ | ⟨⟨⟩⟩⟩
    exact absurd hlt (Nat.not_lt.2 hra)
  have hcell : ∀ a, a = (s.sp - 1).toNat → ∀ b, b ≠ a → t.cell b = s.cell b := by
    rintro a rfl b hb
    exact (exec_next_cell h b).resolve_right fun ⟨hba, _⟩ => hb hba
  rcases hi with rfl | rfl <;>
    exact ⟨fun j hj => (exec_next_reg h j).resolve_right hj, (exec_next_flags h).resolve_right (by simp),
      (exec_next_out h).resolve_right (by simp), exec_next_cfg h, (exec_next_status h).resolve_right (by simp),
      hcell, hpush⟩

/-- Settles O35: POP writes SP and the register it names; RET writes SP and `pc` and cannot fault. -/
theorem popRetFrame : Obligations.PopRetFrame := by
  refine ⟨fun s t ra h => ?_, fun s t h => ?_⟩
  · exact ⟨fun j hj hra => (exec_next_reg h j).resolve_right fun hw => hw.elim hra hj,
      (exec_next_flags h).resolve_right (by simp), fun b => (exec_next_cell h b).resolve_right (by simp),
      (exec_next_out h).resolve_right (by simp), exec_next_cfg h, (exec_next_status h).resolve_right (by simp)⟩
  · rw [exec_ret, execRet_eq] at h
    cases h
    exact ⟨fun j hj => State.reg_setSp_other _ _ hj, rfl, fun _ => rfl, rfl, rfl, rfl⟩

/-! ### What a step can do, with the instruction it runs -/

/-- What it is for a state to have a current instruction (R81, R84): the engine runs, the three bytes lie in memory,
the byte at `pc` is bound to the instruction's operation, and the step runs the instruction. -/
theorem current?_some {s : State} {i : Instr} (h : s.current? = some i) :
    s.status = .running ∧ s.pc.toNat + 2 < memSize ∧ s.cfg.lookup (s.cell s.pc.toNat) = some i.op ∧
      step s = exec i s := by
  unfold State.current? at h
  split at h
  · rename_i hrun
    obtain ⟨hr, hp⟩ := hrun
    split at h
    · rename_i j rest hd
      cases h
      obtain ⟨hl, hi⟩ := decode_three_ok hd
      refine ⟨hr, hp, hl, ?_⟩
      rw [step_running hr hp, hl]
      exact congrArg (exec · s) hi.symm
    · cases h
  · cases h

theorem current?_of_lookup {s : State} {o : Op} (hr : s.status = .running) (hp : s.pc.toNat + 2 < memSize)
    (hl : s.cfg.lookup (s.cell s.pc.toNat) = some o) :
    s.current? = some (o.instr (s.cell (s.pc.toNat + 1)) (s.cell (s.pc.toNat + 2))) := by
  obtain ⟨rest, hd⟩ := decode_three_some hl (s.cell (s.pc.toNat + 1)) (s.cell (s.pc.toNat + 2))
  unfold State.current?
  rw [if_pos ⟨hr, hp⟩, hd]

/-- A step runs the current instruction, or changes nothing but `pc`, or nothing but the status into a fault. -/
theorem step_next_current {s t : State} (h : step s = .next t) :
    (∃ i, s.current? = some i ∧ exec i s = .next t) ∨ (∃ a, t = s.setPc a) ∨ (∃ c n, t = s.raised c n) := by
  rcases step_next h with ⟨-, rfl⟩ | ⟨-, -, rfl⟩ | ⟨hr, hp, o, hl, h⟩ | ⟨-, -, -, h⟩
  · exact .inr (.inl ⟨t.pc, rfl⟩)
  · exact .inr (.inr ⟨_, _, rfl⟩)
  · exact .inl ⟨_, current?_of_lookup hr hp hl, h⟩
  · rcases illegalOpcode_next h with ⟨-, rfl⟩ | ⟨-, h⟩
    · exact .inr (.inr ⟨_, _, rfl⟩)
    · rcases advance_next h with ⟨-, rfl⟩ | ⟨-, rfl⟩
      · exact .inr (.inl ⟨_, rfl⟩)
      · exact .inr (.inr ⟨_, _, rfl⟩)

/-- If a step changes a field other than `pc` and the status, it runs an instruction that does. -/
theorem step_next_changes {α : Type} (f : State → α) (hpc : ∀ s a, f (State.setPc s a) = f s)
    (hraised : ∀ s c n, f (State.raised s c n) = f s) {s t : State} (h : step s = .next t) (hne : f t ≠ f s) :
    ∃ i, s.current? = some i ∧ exec i s = .next t := by
  rcases step_next_current h with hi | ⟨a, rfl⟩ | ⟨c, n, rfl⟩
  · exact hi
  · exact absurd (hpc s a) hne
  · exact absurd (hraised s c n) hne

/-- Settles O39: only PUSH and CALL store, and both at the decremented SP. -/
theorem memoryChangesOnlyAtTheNewStackTop : Obligations.MemoryChangesOnlyAtTheNewStackTop := by
  intro s t a h hne
  obtain ⟨i, hi, h⟩ := step_next_changes (State.cell · a) (fun _ _ => rfl) (fun _ _ _ => rfl) h hne
  obtain ⟨ha, ra, hpc⟩ := (exec_next_cell h a).resolve_left hne
  refine ⟨ha, ra, ?_⟩
  rcases hpc with ⟨rfl, -⟩ | rfl
  · exact .inl hi
  · exact .inr hi

/-- Settles O40: only PRN emits. -/
theorem outputGrowsOnlyByPrn : Obligations.OutputGrowsOnlyByPrn := by
  intro s t h hne
  obtain ⟨i, hi, h⟩ := step_next_changes State.out (fun _ _ => rfl) (fun _ _ _ => rfl) h hne
  obtain ⟨ra, a, rfl, ha, hout⟩ := (exec_next_out h).resolve_left hne
  exact ⟨ra, a, hi, ha, hout⟩

/-- The instructions that write a register, by name. -/
theorem writesReg_cases {i : Instr} {j : RegIx} (h : WritesReg i j) :
    (∃ ra x : Byte, Names ra j ∧ (i = .ldi ra x ∨ i = .add ra x ∨ i = .sub ra x ∨ i = .mul ra x ∨
      i = .div ra x ∨ i = .mod ra x ∨ i = .pop ra)) ∨
    (j = 7 ∧ ((∃ ra : Byte, i = .push ra ∨ i = .pop ra ∨ i = .call ra) ∨ i = .ret)) := by
  cases i with
  | ldi ra x | add ra x | sub ra x | mul ra x | div ra x | mod ra x => exact .inl ⟨ra, x, h, by simp⟩
  | pop ra =>
    rcases h with h | h
    · exact .inl ⟨ra, 0, h, by simp⟩
    · exact .inr ⟨h, .inl ⟨ra, by simp⟩⟩
  | push ra | call ra => exact .inr ⟨h, .inl ⟨ra, by simp⟩⟩
  | ret => exact .inr ⟨h, .inr rfl⟩
  | hlt | prn | cmp | jmp | jeq | jne => exact h.elim

/-- Settles O41, by the list of the registers an instruction may write. -/
theorem registersChangeOnlyWhereNamed : Obligations.RegistersChangeOnlyWhereNamed := by
  intro s t j h hne
  obtain ⟨i, hi, h⟩ := step_next_changes (State.reg · j) (fun _ _ => rfl) (fun _ _ _ => rfl) h hne
  exact ⟨i, hi, writesReg_cases ((exec_next_reg h j).resolve_left hne)⟩

/-- Settles O42: of what a running engine's step can do, only HLT's own update makes the status `halted`. -/
theorem haltedOnlyByHlt : Obligations.HaltedOnlyByHlt := by
  intro s t hr h ht
  rcases step_next_current h with ⟨i, hi, h⟩ | ⟨a, rfl⟩ | ⟨c, n, rfl⟩
  · have hhlt : i = .hlt := (exec_next_status h).resolve_left (by simp [hr, ht])
    subst hhlt
    refine ⟨hi, ?_⟩
    rcases advance_next h with ⟨-, rfl⟩ | ⟨-, rfl⟩
    · rw [ofNat_pc_add]
      rfl
    · simp at ht
  · simp [hr] at ht
  · simp at ht

/-- The length of the byte an instruction was fetched by is its own length, under a legal opcode map (R62, R66). -/
theorem opcodeLength_of_lookup {c : Config} {ir : Byte} {i : Instr} (hm : c.opcodes.wf = true)
    (hl : c.lookup ir = some i.op) : opcodeLength ir = i.operands.length + 1 := by
  obtain ⟨-, hbyte⟩ := Config.lookup_some hl
  rw [← hbyte, ← Laws.EncodedLength.of_format i c hm]
  rfl

/-- Settles O43: an instruction that is no control-flow opcode cannot end its cycle by a jump. -/
theorem nonControlFlowAdvancesByLength : Obligations.NonControlFlowAdvancesByLength := by
  intro s t i hm hi hcf h
  obtain ⟨hr, -, hl, hstep⟩ := current?_some hi
  obtain ⟨u, hu, ht⟩ := exec_next (hstep ▸ h)
  have hlen := opcodeLength_of_lookup hm hl
  cases ht with
  | advanced hlt =>
    refine .inl ⟨?_, fun r hfault => ?_⟩
    · rw [hlen, ← hu.pc]
      exact Nat.mod_eq_of_lt hlt
    · rcases hu.status with hus | ⟨-, hus⟩ <;> simp [hus, hr] at hfault
  | raised c n => exact .inr ⟨hu.pc, _, rfl⟩
  | jumped hj => simp [hcf] at hj

end Sys2Proof.Machine
end

/-! ### The flags: written by CMP, read by JEQ and JNE (R18) -/

section
namespace Sys2Proof.Machine

/-- The two states are the same but for the flags. -/
def SameButFlags (s u : State) : Prop := ∃ f : Flags, u = s.setFlags f

/-- Both answer a next state, and those are the same but for the flags. -/
def AnswerAlike (r q : Result) : Prop := ∃ t u : State, r = .next t ∧ q = .next u ∧ SameButFlags t u

/-! Run from two states that are the same but for the flags, each operation answers alike, if what comes after it
does. -/

section
variable {s u : State}

theorem SameButFlags.raise (h : SameButFlags s u) (c : Cause) (n : Nat) :
    AnswerAlike (raise c n s) (raise c n u) := by
  obtain ⟨f, rfl⟩ := h
  exact ⟨_, _, rfl, rfl, f, rfl⟩

theorem SameButFlags.advance (h : SameButFlags s u) (len : Nat) :
    AnswerAlike (advance len s) (advance len u) := by
  obtain ⟨f, rfl⟩ := h
  by_cases hl : s.pc.toNat + len < memSize
  · rw [advance_of_lt hl, advance_of_lt (s := s.setFlags f) hl]
    exact ⟨_, _, rfl, rfl, f, rfl⟩
  · rw [advance_of_ge (Nat.not_lt.1 hl), advance_of_ge (s := s.setFlags f) (Nat.not_lt.1 hl)]
    exact SameButFlags.raise ⟨f, rfl⟩ _ _

theorem SameButFlags.readReg (h : SameButFlags s u) (i : Byte) {k l : Byte → Result}
    (hk : ∀ v, AnswerAlike (k v) (l v)) : AnswerAlike (readReg i s k) (readReg i u l) := by
  rcases names_or_ge i with ⟨a, ha⟩ | hi
  · obtain ⟨f, rfl⟩ := h
    rw [readReg_of_names ha, readReg_of_names ha]
    exact hk _
  · rw [readReg_of_ge hi, readReg_of_ge hi]
    exact h.raise _ _

theorem SameButFlags.writeReg (h : SameButFlags s u) (i v : Byte) {k : State → Result}
    (hk : ∀ s u, SameButFlags s u → AnswerAlike (k s) (k u)) :
    AnswerAlike (writeReg i v s k) (writeReg i v u k) := by
  rcases names_or_ge i with ⟨a, ha⟩ | hi
  · obtain ⟨f, rfl⟩ := h
    rw [writeReg_of_names ha, writeReg_of_names ha]
    exact hk _ _ ⟨f, rfl⟩
  · rw [writeReg_of_ge hi, writeReg_of_ge hi]
    exact h.raise _ _

/-- The address of a store by SP is a byte, so it lies in memory (R45). -/
theorem SameButFlags.memWrite (h : SameButFlags s u) (b v : Byte) {k : State → Result}
    (hk : ∀ s u, SameButFlags s u → AnswerAlike (k s) (k u)) :
    AnswerAlike (memWrite b.toNat v s k) (memWrite b.toNat v u k) := by
  obtain ⟨f, rfl⟩ := h
  rw [memWrite_byte, memWrite_byte]
  exact hk _ _ ⟨f, rfl⟩

theorem SameButFlags.jumpTo (h : SameButFlags s u) (ra : Byte) : AnswerAlike (jumpTo ra s) (jumpTo ra u) := by
  refine h.readReg ra fun v => ?_
  obtain ⟨f, rfl⟩ := h
  exact ⟨_, _, rfl, rfl, f, rfl⟩

theorem SameButFlags.arith (h : SameButFlags s u) (op : AluOp) (ra rb : Byte) :
    AnswerAlike (arith op ra rb s) (arith op ra rb u) := by
  refine h.readReg ra fun a => h.readReg rb fun b => ?_
  cases aluApply op a b with
  | none => exact h.raise _ _
  | some v => exact h.writeReg ra v fun _ _ h => h.advance 3

/-- Every instruction keeps two states the same but for the flags; JEQ and JNE do where E is the same in both. -/
theorem SameButFlags.exec (h : SameButFlags s u) (i : Instr)
    (he : u.flags.e = s.flags.e ∨ ((∀ ra, i ≠ .jeq ra) ∧ (∀ ra, i ≠ .jne ra))) :
    AnswerAlike (exec i s) (exec i u) := by
  have ⟨f, hu⟩ := h
  subst hu
  cases i with
  | hlt => exact SameButFlags.advance ⟨f, rfl⟩ 1
  | ldi ra imm => exact h.writeReg ra imm fun _ _ h => h.advance 3
  | prn ra => exact h.readReg ra fun v => SameButFlags.advance ⟨f, rfl⟩ 2
  | add ra rb => exact h.arith .add ra rb
  | sub ra rb => exact h.arith .sub ra rb
  | mul ra rb => exact h.arith .mul ra rb
  | div ra rb => exact h.arith .div ra rb
  | mod ra rb => exact h.arith .mod ra rb
  | cmp ra rb =>
    rw [exec_cmp, exec_cmp, execCmp, execCmp]
    refine h.readReg ra fun a => h.readReg rb fun b => ?_
    have hset : SameButFlags (s.setFlags (compareFlags s.cfg.cmpFlagPolicy a b s.flags))
        ((s.setFlags f).setFlags (compareFlags s.cfg.cmpFlagPolicy a b f)) :=
      ⟨compareFlags s.cfg.cmpFlagPolicy a b f, rfl⟩
    exact hset.advance 3
  | push ra =>
    have hsp : SameButFlags (s.setSp (s.sp - 1)) ((s.setFlags f).setSp (s.sp - 1)) := ⟨f, rfl⟩
    exact hsp.readReg ra fun v => hsp.memWrite _ v fun _ _ h => h.advance 2
  | pop ra =>
    rw [exec_pop, exec_pop, execPop, execPop, memRead_byte, memRead_byte]
    refine h.writeReg ra _ fun s u h => ?_
    obtain ⟨f, rfl⟩ := h
    exact SameButFlags.advance ⟨f, rfl⟩ 2
  | call ra =>
    have hsp : SameButFlags (s.setSp (s.sp - 1)) ((s.setFlags f).setSp (s.sp - 1)) := ⟨f, rfl⟩
    exact hsp.memWrite _ _ fun _ _ h => h.jumpTo ra
  | ret =>
    rw [exec_ret, exec_ret, execRet_eq, execRet_eq]
    exact ⟨_, _, rfl, rfl, f, rfl⟩
  | jmp ra => exact h.jumpTo ra
  | jeq ra =>
    have hfe : (s.setFlags f).flags.e = s.flags.e := he.resolve_right fun ⟨hjeq, _⟩ => hjeq ra rfl
    rw [exec_jeq, exec_jeq, execJeq, execJeq, hfe]
    split
    · exact h.jumpTo ra
    · exact h.advance 2
  | jne ra =>
    have hfe : (s.setFlags f).flags.e = s.flags.e := he.resolve_right fun ⟨_, hjne⟩ => hjne ra rfl
    rw [exec_jne, exec_jne, execJne, execJne, hfe]
    split
    · exact h.jumpTo ra
    · exact h.advance 2

end

/-- Settles O38: only CMP's effect is on the flags, and the rest of a cycle answers alike whatever they are. -/
theorem flagsWrittenByCmpReadByJeqJne : Obligations.FlagsWrittenByCmpReadByJeqJne := by
  refine ⟨fun s t h hne => ?_, fun s i f he => ?_⟩
  · obtain ⟨i, hi, h⟩ := step_next_changes State.flags (fun _ _ => rfl) (fun _ _ _ => rfl) h hne
    obtain ⟨ra, rb, rfl⟩ := (exec_next_flags h).resolve_left hne
    exact ⟨ra, rb, hi⟩
  · obtain ⟨t, u, ht, hu, g, rfl⟩ := SameButFlags.exec (s := s) (u := s.setFlags f) ⟨f, rfl⟩ i he
    exact ⟨t, t.setFlags g, ht, hu, rfl⟩

end Sys2Proof.Machine
end

/-! ### A stopped engine, reset, launch, and what the interfaces show -/

section
namespace Sys2Proof.Machine

/-- A step of an engine that is halted or faulted answers the state it was given (R22, log entry 4). -/
theorem step_of_stopped {s : State} (h : s.status ≠ .running) : step s = .next s := by
  unfold step
  rcases hs : s.status with _ | _ | r
  · exact absurd hs h
  · rfl
  · rfl

/-- A run of one step more takes a step that answers a next state and runs on from there. -/
theorem run_succ_of_next {M : Host.Core} {n : Nat} {s t : M.State} (h : M.step s = .next t) :
    M.run (n + 1) s = M.run n t := by
  rw [Host.Core.run, h]

/-- Settles O46, by induction on the number of steps. -/
theorem stoppedEngineIsFrozen : Obligations.StoppedEngineIsFrozen := by
  intro n s h
  induction n with
  | zero => rfl
  | succ n ih => exact (run_succ_of_next (M := Sys2Proof.core) (step_of_stopped h)).trans ih

/-- An entry of a canonical memory is not what an unlisted address reads as, so a memory that lists only higher
addresses reads differently there. -/
theorem Memory.read_head_ne {c : Host.Cell} {m n : Memory} (hm : Memory.wf (c :: m) = true)
    (hn : ∀ d ∈ n, c.1 < d.1) : Memory.read (c :: m) c.1 ≠ Memory.read n c.1 := by
  obtain ⟨-, hne, -, -⟩ := (Memory.wf_cons c m).1 hm
  rw [Memory.read_cons, if_pos rfl, Memory.read_of_forall_gt hn]
  exact hne

/-- Every address of a canonical memory is at least its first. -/
theorem Memory.lt_of_lt_head {k : Nat} {d : Host.Cell} {n : Memory} (hn : Memory.wf (d :: n) = true) (h : k < d.1) :
    ∀ e ∈ d :: n, k < e.1 := by
  obtain ⟨-, -, hgt, -⟩ := (Memory.wf_cons d n).1 hn
  intro e he
  rcases List.mem_cons.1 he with rfl | he
  · exact h
  · exact h.trans (hgt e he)

/-- Two canonical memories with the same first address that read alike have the same first entry, and their tails
read alike. -/
theorem Memory.read_tail_eq {c d : Host.Cell} {m n : Memory} (hm : Memory.wf (c :: m) = true)
    (hn : Memory.wf (d :: n) = true) (hcd : c.1 = d.1) (h : ∀ a, Memory.read (c :: m) a = Memory.read (d :: n) a) :
    c = d ∧ ∀ a, m.read a = n.read a := by
  obtain ⟨-, -, hmgt, -⟩ := (Memory.wf_cons c m).1 hm
  obtain ⟨-, -, hngt, -⟩ := (Memory.wf_cons d n).1 hn
  simp only [Memory.read_cons] at h
  refine ⟨Prod.ext hcd (by simpa [hcd] using h c.1), fun a => ?_⟩
  by_cases ha : c.1 = a
  · subst ha
    rw [Memory.read_of_forall_gt hmgt, hcd, Memory.read_of_forall_gt hngt]
  · simpa [ha, hcd ▸ ha] using h a

/-- Settles O49, by induction on the first list: the first entries have the same address, since the lower of the two
addresses is listed in one memory only. -/
theorem canonicalMemoriesReadingAlikeAreEqual : Obligations.CanonicalMemoriesReadingAlikeAreEqual := by
  intro m
  induction m with
  | nil =>
    intro n _ hn h
    cases n with
    | nil => rfl
    | cons d n => exact absurd (h d.1).symm (Memory.read_head_ne hn (by simp))
  | cons c m ih =>
    intro n hm hn h
    cases n with
    | nil => exact absurd (h c.1) (Memory.read_head_ne hm (by simp))
    | cons d n =>
      rcases lt_trichotomy c.1 d.1 with hlt | heq | hgt
      · exact absurd (h c.1) (Memory.read_head_ne hm (Memory.lt_of_lt_head hn hlt))
      · obtain ⟨rfl, htail⟩ := Memory.read_tail_eq hm hn heq h
        obtain ⟨-, -, -, hmwf⟩ := (Memory.wf_cons c m).1 hm
        obtain ⟨-, -, -, hnwf⟩ := (Memory.wf_cons c n).1 hn
        rw [ih n hmwf hnwf htail]
      · exact absurd (h d.1).symm (Memory.read_head_ne hn (Memory.lt_of_lt_head hm hgt))

/-- Settles O54: what the cells hold is the law of reading after storing consecutive bytes, and they all fit. -/
theorem launchPlacesProgram : Obligations.LaunchPlacesProgram := by
  refine ⟨fun b hb => ⟨State.reset.setMem (State.reset.mem.writeBytes 0 b), if_pos hb, ?_, ?_, rfl, ?_, trivial⟩,
    fun b hb => if_neg (Nat.not_le.2 hb)⟩
  · intro k hk
    simp [Memory.read_writeBytes, hk]
  · intro k hk
    simp [Memory.read_writeBytes, Nat.not_lt.2 hk, State.reset, Memory.unlisted]
  · exact Memory.wf_writeBytes Memory.wf_nil (by simpa [memSize] using hb)

/-- Settles O47: at reset nothing is listed in memory and the engine runs. -/
theorem invariantHoldsAtReset : Obligations.InvariantHoldsAtReset := ⟨Memory.wf_nil, trivial⟩

/-- Settles O51, field by field of `State.reset`. -/
theorem resetValues : Obligations.ResetValues :=
  ⟨by decide, rfl, rfl, rfl, rfl, fun a => Memory.read_nil a, rfl, rfl, rfl, rfl⟩

/-- Settles O52, for each of the eight values of the flags. -/
theorem flagsLayout : Obligations.FlagsLayout := by
  rintro ⟨l, g, e⟩
  revert l g e
  decide

theorem State.cell?_of_lt {s : State} {a : Nat} (h : a < memSize) : s.cell? a = some (s.cell a) := if_pos h

/-- Settles O53: up to 253 the three cells lie in memory. -/
theorem traceShowsTheFetchedCells : Obligations.TraceShowsTheFetchedCells := by
  intro s hp
  have hlt : ∀ k, k ≤ 2 → s.pc.toNat + k < memSize := fun k hk => by
    rw [memSize]
    omega
  refine ⟨rfl, rfl, ?_⟩
  rw [State.trace, State.cell?_of_lt (byte_lt_memSize s.pc), State.cell?_of_lt (hlt 1 (by decide)),
    State.cell?_of_lt (hlt 2 le_rfl)]

end Sys2Proof.Machine
end

/-! ### A store and the next fetch (R50, R53) -/

section
namespace Sys2Proof.Machine

/-- PUSH with an operand that names a register, wherever its advance stays in memory (R130): the register is read
after SP is decremented, its byte is stored at the new SP, and `pc` moves on by 2. -/
theorem exec_push_of_names {s : State} {ra : Byte} {a : RegIx} (ha : Names ra a) (hp : s.pc.toNat + 2 < memSize) :
    exec (.push ra) s = .next (((s.setSp (s.sp - 1)).setMem
      (s.mem.write (s.sp - 1).toNat ((s.setSp (s.sp - 1)).reg a))).setPc (s.pc + 2)) := by
  rw [exec_push, execPush, readReg_of_names ha, memWrite_byte, State.sp_setSp, advance_of_lt (by exact hp),
    ofNat_pc_add]
  rfl

/-- The sum does not wrap where the address it gives lies in memory (R17). -/
theorem toNat_pc_add_two {s : State} (hp : s.pc.toNat + 2 < memSize) : (s.pc + 2).toNat = s.pc.toNat + 2 :=
  (BitVec.toNat_add s.pc 2).trans (Nat.mod_eq_of_lt hp)

/-- Code and data share one memory (R50): a bound byte stored at `pc` is the opcode of the next cycle, and its
operands come from the cells after it, which the store leaves alone. -/
theorem current?_of_store_at_pc {t : State} {m : Memory} {v : Byte} {o : Op} (hr : t.status = .running)
    (hp : t.pc.toNat + 2 < memSize) (hm : t.mem = m.write t.pc.toNat v) (hl : t.cfg.lookup v = some o) :
    t.current? = some (o.instr (m.read (t.pc.toNat + 1)) (m.read (t.pc.toNat + 2))) := by
  have hopcode : t.cell t.pc.toNat = v := by rw [State.cell, hm, Memory.read_write_same]
  have hoperand : ∀ k, 0 < k → t.cell (t.pc.toNat + k) = m.read (t.pc.toNat + k) := fun k hk => by
    rw [State.cell, hm, Memory.read_write_other m v (by omega)]
  rw [current?_of_lookup hr hp (hopcode ▸ hl), hoperand 1 (by decide), hoperand 2 (by decide)]

/-- Settles O50: the PUSH stores at `pc + 2` the byte its register holds, which the decrement of SP left alone, and
moves `pc` to that same address. -/
theorem storeIsSeenByTheNextFetch : Obligations.StoreIsSeenByTheNextFetch := by
  intro s ra a o hcur ha hne hle hsp hl
  obtain ⟨hr, hp, -, hstep⟩ := current?_some hcur
  have hpush := exec_push_of_names ha hp
  rw [State.reg_setSp_other s _ hne, hsp] at hpush
  have hpc := toNat_pc_add_two hp
  have hfetch : (s.pc + 2).toNat + 2 < memSize := by
    rw [hpc, memSize]
    omega
  have hnext := current?_of_store_at_pc (m := s.mem) (v := s.reg a) (o := o)
    (t := ((s.setSp (s.pc + 2)).setMem (s.mem.write (s.pc + 2).toNat (s.reg a))).setPc (s.pc + 2)) hr hfetch rfl hl
  refine ⟨_, hstep.trans hpush, hnext.trans ?_⟩
  rw [State.setPc_pc, hpc]
  rfl

end Sys2Proof.Machine
end

/-! ### What the dispatch table binds and what the decoder accepts (R60 to R70) -/

section
namespace Sys2Proof

/-- Under a legal opcode map the lookup answers an operation exactly for its own byte, where it is dispatched
(R66, R67, R68). -/
theorem Config.lookup_eq_some_iff {c : Config} (hm : c.opcodes.wf = true) {ir : Byte} {o : Op} :
    c.lookup ir = some o ↔ c.dispatches o = true ∧ c.opcodes.byte o = ir := by
  refine ⟨Config.lookup_some, ?_⟩
  rintro ⟨hd, rfl⟩
  exact Config.lookup_byte hm hd

theorem takeOperands_operands (i : Instr) (rest : List Byte) :
    takeOperands i.op (i.operands ++ rest) = .ok (i, rest) := by
  cases i <;> rfl

/-- An instruction made of two operand bytes keeps of them as many as its format has, A before B (R63, R65). -/
theorem Op.operands_instr (o : Op) (a b : Byte) :
    (o.instr a b).operands = [a, b].take o.format.operandCount := by
  cases o <;> rfl

/-- What is taken off the bytes is the operand bytes of the instruction answered, and nothing else (R63). -/
theorem takeOperands_eq_ok_iff {o : Op} {bytes rest : List Byte} {i : Instr} :
    takeOperands o bytes = .ok (i, rest) ↔ o = i.op ∧ bytes = i.operands ++ rest := by
  constructor
  · intro h
    unfold takeOperands at h
    split at h
    case h_1 hf | h_2 hf | h_3 hf | h_4 hf =>
      cases h
      exact ⟨(Op.op_instr o _ _).symm, by rw [Op.operands_instr, hf]; rfl⟩
    all_goals cases h
  · rintro ⟨rfl, rfl⟩
    exact takeOperands_operands i rest

/-- The decoder, once: it answers an instruction exactly where the first byte is bound to its operation and its
operands stand next, and it leaves what follows (R43, R60, R68). -/
theorem decode_eq_ok_iff {c : Config} {bytes rest : List Byte} {i : Instr} :
    decode c bytes = .ok (i, rest) ↔ ∃ ir, c.lookup ir = some i.op ∧ bytes = ir :: (i.operands ++ rest) := by
  constructor
  · intro h
    cases bytes with
    | nil => cases h
    | cons ir more =>
      rcases hl : c.lookup ir with _ | o
      · simp [decode, hl] at h
      · simp only [decode, hl] at h
        obtain ⟨rfl, rfl⟩ := takeOperands_eq_ok_iff.1 h
        exact ⟨ir, hl, rfl⟩
  · rintro ⟨ir, hl, rfl⟩
    simp only [decode, hl, takeOperands_operands]

/-- Settles O3: a legal map binds the opcode byte of a dispatched operation to it, and the operands follow. -/
theorem encodedInstructionsDecodeBack : Obligations.EncodedInstructionsDecodeBack := fun _ _ _ hm hd =>
  decode_eq_ok_iff.2 ⟨_, Config.lookup_byte hm hd, rfl⟩

/-- Settles O4: a byte the lookup binds is the opcode byte of what it is bound to, so no legality is needed. -/
theorem decodedBytesAreTheEncoding : Obligations.DecodedBytesAreTheEncoding := by
  intro c bytes rest i h
  obtain ⟨ir, hl, rfl⟩ := decode_eq_ok_iff.1 h
  obtain ⟨hd, rfl⟩ := Config.lookup_some hl
  exact ⟨rfl, hd⟩

/-- The field `IR[7:6]` as a quotient (R61). -/
theorem operandField_eq_div (ir : Byte) : operandField ir = ir.toNat / 64 := by
  have hlt : ir.toNat / 64 < 4 := by omega
  calc operandField ir = (ir.toNat >>> 6) &&& (2 ^ 2 - 1) := by simp [operandField]
    _ = ir.toNat / 64 % 4 := by rw [Nat.and_two_pow_sub_one_eq_mod, Nat.shiftRight_eq_div_pow]
    _ = ir.toNat / 64 := Nat.mod_eq_of_lt hlt

theorem Format.operandCount_le (f : Format) : f.operandCount ≤ 2 := by
  cases f <;> decide

/-- Settles O5: the bytes taken are the opcode byte and the operands, which the length of a bound byte counts. -/
theorem lengthFormulaCountsConsumedBytes : Obligations.LengthFormulaCountsConsumedBytes := by
  constructor
  · intro ir
    have hquot : opcodeLength ir = ir.toNat / 64 + 1 := by rw [opcodeLength, operandField_eq_div]
    exact ⟨hquot, by omega, by omega⟩
  · intro c ir more rest i hm h
    obtain ⟨_, hl, hbytes⟩ := decode_eq_ok_iff.1 h
    obtain ⟨rfl, rfl⟩ := List.cons.inj hbytes
    have hlen := Machine.opcodeLength_of_lookup hm hl
    have hcount := Format.operandCount_le i.op.format
    rw [← Instr.operands_length] at hcount
    simp only [List.length_cons, List.length_append]
    omega

theorem defaultConfig_opcodes_wf : defaultConfig.opcodes.wf = true := OpcodeMap.default_wf

theorem tableConfig_opcodes_wf : tableConfig.opcodes.wf = true := OpcodeMap.default_wf

theorem defaultConfig_dispatches (o : Op) : defaultConfig.dispatches o = !o.aluExt := rfl

theorem tableConfig_dispatches (o : Op) : tableConfig.dispatches o = true := rfl

theorem defaultConfig_opcodes : defaultConfig.opcodes = OpcodeMap.default := rfl

theorem tableConfig_opcodes : tableConfig.opcodes = OpcodeMap.default := rfl

/-- `DISPATCH_ALU_EXT` adds the three optional operations to the table and takes none away (R67). -/
theorem tableConfig_lookup_eq_some_iff {ir : Byte} {o : Op} :
    tableConfig.lookup ir = some o ↔
      defaultConfig.lookup ir = some o ∨ (o.aluExt = true ∧ OpcodeMap.default.byte o = ir) := by
  rw [Config.lookup_eq_some_iff tableConfig_opcodes_wf, Config.lookup_eq_some_iff defaultConfig_opcodes_wf]
  rw [tableConfig_dispatches, defaultConfig_dispatches, tableConfig_opcodes, defaultConfig_opcodes]
  cases o.aluExt <;> simp

/-- Settles O1: by the operation, whose byte is the one the table pairs with it. -/
theorem opcodeTableBindsExactly : Obligations.OpcodeTableBindsExactly := by
  constructor
  · intro ir o
    rw [Config.lookup_eq_some_iff defaultConfig_opcodes_wf, defaultConfig_dispatches, defaultConfig_opcodes,
      eq_comm (b := ir)]
    cases o <;> simp [Op.aluExt, OpcodeMap.byte, OpcodeMap.default]
  · intro ir o
    rw [tableConfig_lookup_eq_some_iff, eq_comm (b := ir)]
    refine or_congr_right ?_
    cases o <;> simp [Op.aluExt, OpcodeMap.byte, OpcodeMap.default]

/-- Settles O2: all but the unbound SUB byte are encodings, which decode back by O3. -/
theorem specWordsDecodeToTheirInstructions : Obligations.SpecWordsDecodeToTheirInstructions :=
  have back := fun i rest => encodedInstructionsDecodeBack defaultConfig i rest defaultConfig_opcodes_wf
  ⟨back .hlt [0xFF, 0xFF] rfl, back (.ldi 7 244) [] rfl, back (.mul 0 1) [] rfl, back (.push 3) [0x99] rfl,
    back (.call 1) [0x00] rfl, back (.jeq 99) [0x00] rfl, decode_three_none (by decide) 0x00 0x01,
    encodedInstructionsDecodeBack tableConfig (.sub 0 1) [] tableConfig_opcodes_wf rfl⟩

end Sys2Proof
end

/-! ### One cycle: the fetch, the dispatch, and that every state has a next (R80 to R91) -/

section
namespace Sys2Proof.Machine

/-- Up to 253 the three bytes of a cycle lie in memory (R81, R82). -/
theorem fetch_fits {s : State} (h : s.pc.toNat ≤ 253) : s.pc.toNat + 2 < memSize :=
  Nat.lt_of_le_of_lt (Nat.add_le_add_right h 2) (by decide)

/-- A cycle that gets past the fetch runs the instruction that the bound operation makes of the two operand bytes
(R84). -/
theorem step_of_lookup_some {s : State} {o : Op} (hr : s.status = .running) (hp : s.pc.toNat + 2 < memSize)
    (hl : s.cfg.lookup (s.cell s.pc.toNat) = some o) :
    step s = exec (o.instr (s.cell (s.pc.toNat + 1)) (s.cell (s.pc.toNat + 2))) s := by
  rw [step_running hr hp, hl]

/-- A cycle that gets past the fetch of an unbound byte applies the illegal-opcode rule (R86). -/
theorem step_of_lookup_none {s : State} (hr : s.status = .running) (hp : s.pc.toNat + 2 < memSize)
    (hl : s.cfg.lookup (s.cell s.pc.toNat) = none) : step s = illegalOpcode (s.cell s.pc.toNat) s := by
  rw [step_running hr hp, hl]

/-- A cycle that does not get past the fetch faults at the first address outside memory (R82, R176). -/
theorem step_of_fetch_ge {s : State} (hr : s.status = .running) (hp : memSize ≤ s.pc.toNat + 2) :
    step s = raise .outOfBoundsAddress 256 s := by
  unfold step
  rw [hr]
  exact fetch_of_ge hp _

theorem illegalOpcode_of_fault {s : State} (h : s.cfg.illegalOpcodePolicy = .fault) (ir : Byte) :
    illegalOpcode ir s = raise .illegalOpcode ir.toNat s := by
  rw [illegalOpcode, h]

theorem illegalOpcode_of_skip {s : State} (h : s.cfg.illegalOpcodePolicy = .skip) (ir : Byte) :
    illegalOpcode ir s = advance (opcodeLength ir) s := by
  rw [illegalOpcode, h]

/-- Settles O6: three bytes decode to what the operation bound to the first makes of the other two. -/
theorem stepRunsDecodedInstruction : Obligations.StepRunsDecodedInstruction := by
  intro s i rest hr hp hd
  obtain ⟨hl, hi⟩ := decode_three_ok hd
  rw [step_of_lookup_some hr (fetch_fits hp) hl, ← hi]

/-- Settles O8: the fetch of operand A or of operand B leaves memory. -/
theorem fetchPastEndOfMemoryFaults : Obligations.FetchPastEndOfMemoryFaults := fun _ hr hp =>
  step_of_fetch_ge hr (Nat.add_le_add_right hp 2)

/-- Settles O9, by the policy and, under `skip`, by whether the advance stays in memory. -/
theorem unboundOpcodeFaultsOrSkips : Obligations.UnboundOpcodeFaultsOrSkips := by
  intro s hr hp hl
  rw [step_of_lookup_none hr (fetch_fits hp) hl]
  refine ⟨fun hfault => ?_, fun hskip hle => ?_, fun hskip hgt => ?_⟩
  · exact illegalOpcode_of_fault hfault _
  · rw [illegalOpcode_of_skip hskip]
    exact advance_of_lt (Nat.lt_succ_of_le hle)
  · rw [illegalOpcode_of_skip hskip]
    exact advance_of_ge hgt

/-! The step is total. -/

/-- Every instruction answers a next state; `SameButFlags.exec` says so of two states at once. -/
theorem exec_total (i : Instr) (s : State) : ∃ t, exec i s = .next t := by
  obtain ⟨t, -, ht, -, -⟩ := SameButFlags.exec (s := s) (u := s) ⟨s.flags, rfl⟩ i (.inl rfl)
  exact ⟨t, ht⟩

theorem advance_total (len : Nat) (s : State) : ∃ t, advance len s = .next t := by
  by_cases h : s.pc.toNat + len < memSize
  · exact ⟨_, advance_of_lt h⟩
  · exact ⟨_, advance_of_ge (Nat.not_lt.1 h)⟩

theorem illegalOpcode_total (ir : Byte) (s : State) : ∃ t, illegalOpcode ir s = .next t := by
  rcases hpol : s.cfg.illegalOpcodePolicy with _ | _
  · exact ⟨_, illegalOpcode_of_fault hpol ir⟩
  · rw [illegalOpcode_of_skip hpol]
    exact advance_total _ s

theorem step_total (s : State) : ∃ t, step s = .next t := by
  by_cases hr : s.status = .running
  · by_cases hp : s.pc.toNat + 2 < memSize
    · rcases hl : s.cfg.lookup (s.cell s.pc.toNat) with _ | o
      · rw [step_of_lookup_none hr hp hl]
        exact illegalOpcode_total _ s
      · rw [step_of_lookup_some hr hp hl]
        exact exec_total _ s
    · exact ⟨_, step_of_fetch_ge hr (Nat.not_lt.1 hp)⟩
  · exact ⟨s, step_of_stopped hr⟩

/-- An instruction of a running engine that faults leaves `pc` where it was (R88): the cycle that ends with the fault
has not advanced or jumped, and no effect before it is on `pc`. -/
theorem exec_next_pc_of_faulted {i : Instr} {s t : State} {r : FaultRecord} (hr : s.status = .running)
    (h : exec i s = .next t) (ht : t.status = .faulted r) : t.pc = s.pc := by
  obtain ⟨u, hu, hend⟩ := exec_next h
  cases hend with
  | raised c n => exact hu.pc
  | advanced | jumped => rcases hu.status with hus | ⟨-, hus⟩ <;> simp [hus, hr] at ht

/-- A step that answers a faulted state leaves `pc` where it was (R88, R172). -/
theorem step_next_pc_of_faulted {s t : State} {r : FaultRecord} (h : step s = .next t)
    (ht : t.status = .faulted r) : t.pc = s.pc := by
  by_cases hr : s.status = .running
  · rcases step_next_current h with ⟨i, -, h⟩ | ⟨a, rfl⟩ | ⟨c, n, rfl⟩
    · exact exec_next_pc_of_faulted hr h ht
    · simp [hr] at ht
    · rfl
  · rw [step_of_stopped hr] at h
    cases h
    rfl

/-- Settles O45: the step is total, and whatever faulted state it answers has the `pc` before. -/
theorem stepAlwaysAnswersNext : Obligations.StepAlwaysAnswersNext := by
  intro s
  obtain ⟨t, h⟩ := step_total s
  exact ⟨t, h, fun r => step_next_pc_of_faulted h⟩

/-! A word of the opcode table placed at `pc` (log entries 6 and 7). -/

theorem decodeTableWord_some {nbits w : Nat} {i : Instr} (h : decodeTableWord nbits w = some i) :
    ∃ rest, decode tableConfig (tableBytes nbits w) = .ok (i, rest) := by
  unfold decodeTableWord at h
  split at h
  · rename_i j rest hd
    cases h
    exact ⟨rest, hd⟩
  · cases h

theorem needsAluExt_byte (c : Config) {o : Op} (h : o.aluExt = true) : needsAluExt c (c.opcodes.byte o) = true :=
  List.any_eq_true.2 ⟨o, List.mem_filter.2 ⟨Op.mem_all o, h⟩, beq_self_eq_true _⟩

/-- With the default opcode bytes, a byte the opcode table binds is bound to the same operation once
`DISPATCH_ALU_EXT` is set where the byte needs it (R67). -/
theorem lookup_withNeededExt {c : Config} {ir : Byte} {o : Op} (hc : c.opcodes = OpcodeMap.default)
    (hl : tableConfig.lookup ir = some o) :
    { c with dispatchAluExt := c.dispatchAluExt || needsAluExt c ir }.lookup ir = some o := by
  obtain ⟨-, hbyte⟩ := Config.lookup_some hl
  have hir : c.opcodes.byte o = ir := hc ▸ hbyte
  refine (Config.lookup_eq_some_iff (hc ▸ OpcodeMap.default_wf)).2 ⟨?_, hir⟩
  cases ho : o.aluExt with
  | false => simp [Config.dispatches, ho]
  | true => simp [Config.dispatches, ← hir, needsAluExt_byte c ho]

@[simp] theorem State.withFetchBytes_pc (s : State) (bytes : List Byte) : (s.withFetchBytes bytes).pc = s.pc := rfl

/-- Bytes that all fit in memory are placed whole, from `pc` upward. -/
theorem State.cell_withFetchBytes {s : State} {bytes : List Byte} (hfit : s.pc.toNat + bytes.length ≤ memSize)
    {k : Nat} (hk : k < bytes.length) : (s.withFetchBytes bytes).cell (s.pc.toNat + k) = bytes[k] := by
  have htake : bytes.take (memSize - s.pc.toNat) = bytes := List.take_of_length_le (by omega)
  simp [State.cell, State.withFetchBytes, htake, Memory.read_writeBytes, hk]

/-- The three bytes placed at `pc`, where they fit, are the three that the cycle there fetches (R81). -/
theorem State.fetched_withFetchBytes {s : State} {ir opA opB : Byte} (hp : s.pc.toNat + 2 < memSize) :
    (s.withFetchBytes [ir, opA, opB]).cell s.pc.toNat = ir ∧
    (s.withFetchBytes [ir, opA, opB]).cell (s.pc.toNat + 1) = opA ∧
    (s.withFetchBytes [ir, opA, opB]).cell (s.pc.toNat + 2) = opB :=
  have hcell (k : Nat) (hk : k < 3) := State.cell_withFetchBytes (bytes := [ir, opA, opB]) hp hk
  ⟨hcell 0 (by decide), hcell 1 (by decide), hcell 2 (by decide)⟩

/-- With the default opcode bytes, three bytes that decode in the opcode table and are placed at `pc` are run as what
they decode to there: the first is bound to the same operation in both configurations. -/
theorem step_withFetchBytes {s : State} {ir opA opB : Byte} {i : Instr} {rest : List Byte}
    (hr : s.status = .running) (hp : s.pc.toNat ≤ 253) (hc : s.cfg.opcodes = OpcodeMap.default)
    (hd : decode tableConfig [ir, opA, opB] = .ok (i, rest)) :
    step (s.withFetchBytes [ir, opA, opB]) = exec i (s.withFetchBytes [ir, opA, opB]) := by
  obtain ⟨hl, hi⟩ := decode_three_ok hd
  obtain ⟨hir, hopA, hopB⟩ := State.fetched_withFetchBytes (ir := ir) (opA := opA) (opB := opB) (fetch_fits hp)
  have hbound : (s.withFetchBytes [ir, opA, opB]).cfg.lookup ir = some i.op := lookup_withNeededExt hc hl
  obtain ⟨rest', hd'⟩ := decode_three_some hbound opA opB
  refine stepRunsDecodedInstruction (s.withFetchBytes [ir, opA, opB]) i rest' hr hp ?_
  rw [State.withFetchBytes_pc, hir, hopA, hopB, hd', ← hi]

/-- Settles O7: a word of the opcode table is three bytes. -/
theorem fetchWordRunsDecodedInstruction : Obligations.FetchWordRunsDecodedInstruction := by
  intro s nbits w i hr hp hc hw
  obtain ⟨rest, hd⟩ := decodeTableWord_some hw
  exact step_withFetchBytes hr hp hc hd

end Sys2Proof.Machine
end

/-! ### HLT, LDI and PRN: what each gives, and its faults (R100, R102, R104)

All three end in the engine's advance, so each is reduced to an advance once, and the rules of the advance give its
next state or its fault. -/

section
namespace Sys2Proof

/-- What the default table dispatches decodes back from its encoding, whatever bytes follow (R66). -/
theorem decode_default_encode {i : Instr} (hi : i.op.aluExt = false) (rest : List Byte) :
    decode defaultConfig (encode defaultConfig i ++ rest) = .ok (i, rest) :=
  encodedInstructionsDecodeBack defaultConfig i rest defaultConfig_opcodes_wf
    ((defaultConfig_dispatches i.op).trans (by rw [hi]; rfl))

namespace Machine

/-- An advance that stays in memory adds the length to `pc` as a byte (R17). -/
theorem advance_eq_pc_add {len : Nat} {s : State} (h : s.pc.toNat + len < memSize) :
    advance len s = .next (s.setPc (s.pc + BitVec.ofNat 8 len)) := by
  rw [advance_of_lt h, ofNat_pc_add]

/-- An advance to the first address past the end of memory faults with that address, 256 (R17). -/
theorem advance_of_eq {len : Nat} {s : State} (h : s.pc.toNat + len = memSize) :
    advance len s = raise .outOfBoundsAddress 256 s := by
  rw [advance_of_ge h.ge, h, memSize]

theorem exec_ldi_of_names {ra : Byte} {a : RegIx} (ha : Names ra a) (imm : Byte) (s : State) :
    exec (.ldi ra imm) s = advance 3 (s.setReg a imm) := by
  rw [exec_ldi, execLdi, writeReg_of_names ha]

theorem exec_ldi_of_ge {ra : Byte} (h : 8 ≤ ra.toNat) (imm : Byte) (s : State) :
    exec (.ldi ra imm) s = raise .outOfBoundsAddress ra.toNat s := by
  rw [exec_ldi, execLdi, writeReg_of_ge h]

theorem exec_prn_of_names {ra : Byte} {a : RegIx} (ha : Names ra a) (s : State) :
    exec (.prn ra) s = advance 2 (s.emit (s.reg a)) := by
  rw [exec_prn, execPrn, readReg_of_names ha]

theorem exec_prn_of_ge {ra : Byte} (h : 8 ≤ ra.toNat) (s : State) :
    exec (.prn ra) s = raise .outOfBoundsAddress ra.toNat s := by
  rw [exec_prn, execPrn, readReg_of_ge h]

/-- LDI then PRN of one register emits the immediate (R104). No bound on `pc` is needed: the byte is emitted before
PRN's advance, and LDI's advance keeps the registers and the output even where it faults. -/
theorem exec_ldi_exec_prn_out {ra : Byte} {a : RegIx} (ha : Names ra a) (v : Byte) (s : State) :
    ∃ t u : State, exec (.ldi ra v) s = .next t ∧ exec (.prn ra) t = .next u ∧ u.out = s.out ++ [v] := by
  obtain ⟨t, ht⟩ := advance_total 3 (s.setReg a v)
  obtain ⟨u, hu⟩ := advance_total 2 (t.emit (t.reg a))
  obtain ⟨hregs, -, -, hout, -⟩ := advance_next_keeps ht
  obtain ⟨-, -, -, hemit, -⟩ := advance_next_keeps hu
  have hreg : t.reg a = v := by rw [State.reg, hregs, State.setReg_regs, Regs.get_set_same]
  refine ⟨t, u, (exec_ldi_of_names ha v s).trans ht, (exec_prn_of_names ha t).trans hu, ?_⟩
  rw [hemit, State.emit_out, hout, State.setReg_out, hreg]

/-- Settles O10: the status is set before an advance that stays in memory. -/
theorem hltHaltsAndAdvances : Obligations.HltHaltsAndAdvances := by
  refine ⟨fun x y => decode_default_encode (i := .hlt) rfl [x, y], fun s hp => ?_⟩
  rw [exec_hlt, execHlt]
  exact advance_eq_pc_add (show s.pc.toNat + 1 < 256 by omega)

/-- Settles O11: the register is written before the advance, which reaches 255 from 252 and faults from 253. -/
theorem ldiLoadsImmediate : Obligations.LdiLoadsImmediate := by
  refine ⟨fun ra imm => decode_default_encode (i := .ldi ra imm) rfl [], fun s ra imm a ha hp => ?_,
    fun s ra imm a ha hp => ?_, fun s ra imm hra => exec_ldi_of_ge hra imm s⟩
  · rw [exec_ldi_of_names ha]
    exact advance_eq_pc_add (show s.pc.toNat + 3 < 256 by omega)
  · rw [exec_ldi_of_names ha]
    exact advance_of_eq (show s.pc.toNat + 3 = 256 by omega)

/-- Settles O12: the byte is emitted before an advance that stays in memory; the last clause is the round trip. -/
theorem prnEmitsRegister : Obligations.PrnEmitsRegister := by
  refine ⟨fun ra x => decode_default_encode (i := .prn ra) rfl [x], fun s ra a ha hp => ?_,
    fun s ra hra => exec_prn_of_ge hra s, fun s ra v a ha _ => exec_ldi_exec_prn_out ha v s⟩
  rw [exec_prn_of_names ha]
  exact advance_eq_pc_add (show s.pc.toNat + 2 < 256 by omega)

end Machine
end Sys2Proof
end

/-! ### The ALU and the five arithmetic instructions (R111 to R123)

The five instructions share one handler, so its rules are proved once for every operation of the ALU; an instruction
then needs only its operation's result as a number. -/

section
namespace Sys2Proof

/-- With the three optional operations dispatched, every instruction decodes back from its encoding, whatever bytes
follow (R66, R67, decision D12). -/
theorem decode_table_encode (i : Instr) (rest : List Byte) :
    decode tableConfig (encode tableConfig i ++ rest) = .ok (i, rest) :=
  encodedInstructionsDecodeBack tableConfig i rest tableConfig_opcodes_wf (tableConfig_dispatches i.op)

namespace Machine

/-! The results of the ALU as numbers (R111 to R116). -/

theorem aluApply_add (a b : Byte) : aluApply .add a b = some (BitVec.ofNat 8 ((a.toNat + b.toNat) % 256)) :=
  congrArg some (BitVec.eq_of_toNat_eq (by simp))

theorem aluApply_sub (a b : Byte) : aluApply .sub a b = some (BitVec.ofNat 8 ((256 + a.toNat - b.toNat) % 256)) := by
  refine congrArg some (BitVec.eq_of_toNat_eq ?_)
  rw [BitVec.toNat_sub, BitVec.toNat_ofNat]
  omega

theorem aluApply_mul (a b : Byte) : aluApply .mul a b = some (BitVec.ofNat 8 ((a.toNat * b.toNat) % 256)) :=
  congrArg some (BitVec.eq_of_toNat_eq (by simp))

theorem aluApply_div {b : Byte} (hb : b ≠ 0) (a : Byte) :
    aluApply .div a b = some (BitVec.ofNat 8 (a.toNat / b.toNat)) := by
  rw [← BitVec.toNat_udiv, BitVec.ofNat_toNat, BitVec.setWidth_eq]
  exact if_neg hb

theorem aluApply_mod {b : Byte} (hb : b ≠ 0) (a : Byte) :
    aluApply .mod a b = some (BitVec.ofNat 8 (a.toNat % b.toNat)) := by
  rw [← BitVec.toNat_umod, BitVec.ofNat_toNat, BitVec.setWidth_eq]
  exact if_neg hb

/-- Settles O13, by the operation; with a divisor, quotient and remainder are those of the division algorithm. -/
theorem aluMatchesIntegerArithmetic : Obligations.AluMatchesIntegerArithmetic := by
  intro a b
  refine ⟨⟨a + b, rfl, ?_⟩, ⟨a - b, rfl, ?_⟩, ⟨a * b, rfl, ?_⟩, fun hb => ?_, fun hb => ?_⟩
  · rw [BitVec.toNat_add]
    omega
  · rw [BitVec.toNat_sub]
    omega
  · rw [BitVec.toNat_mul]
    push_cast
    rfl
  · have hb0 : b ≠ 0 := fun h => hb (congrArg BitVec.toNat h)
    refine ⟨a / b, a % b, if_neg hb0, if_neg hb0, ?_, ?_⟩
    · rw [BitVec.toNat_udiv, BitVec.toNat_umod, Nat.div_add_mod]
    · rw [BitVec.toNat_umod]
      exact Nat.mod_lt _ (Nat.pos_of_ne_zero hb)
  · have hb0 : b = 0 := BitVec.eq_of_toNat_eq hb
    exact ⟨aluApply_eq_none.2 ⟨.inl rfl, hb0⟩, aluApply_eq_none.2 ⟨.inr rfl, hb0⟩⟩

/-! The rules of the common handler (R123). -/

section
variable {op : AluOp} {ra rb : Byte} {a b : RegIx} {v : Byte} {s : State}

/-- With a result, register A is written and the engine advances. -/
theorem arith_of_some (ha : Names ra a) (hb : Names rb b) (hv : aluApply op (s.reg a) (s.reg b) = some v) :
    arith op ra rb s = advance 3 (s.setReg a v) := by
  rw [arith, readReg_of_names ha, readReg_of_names hb, hv]
  exact writeReg_of_names ha v s _

theorem arith_of_some_of_le (ha : Names ra a) (hb : Names rb b) (hv : aluApply op (s.reg a) (s.reg b) = some v)
    (hp : s.pc.toNat ≤ 252) : arith op ra rb s = .next ((s.setReg a v).setPc (s.pc + 3)) := by
  rw [arith_of_some ha hb hv]
  exact advance_eq_pc_add (show s.pc.toNat + 3 < 256 by omega)

/-- At 253 the register is written before the advance faults. -/
theorem arith_of_some_of_eq (ha : Names ra a) (hb : Names rb b) (hv : aluApply op (s.reg a) (s.reg b) = some v)
    (hp : s.pc.toNat = 253) : arith op ra rb s = raise .outOfBoundsAddress 256 (s.setReg a v) := by
  rw [arith_of_some ha hb hv]
  exact advance_of_eq (show s.pc.toNat + 3 = 256 by omega)

/-- Without a result nothing is written (R115). -/
theorem arith_of_none (ha : Names ra a) (hb : Names rb b) (hv : aluApply op (s.reg a) (s.reg b) = none) :
    arith op ra rb s = raise .divideByZero rb.toNat s := by
  rw [arith, readReg_of_names ha, readReg_of_names hb, hv]

/-- Index A is checked first, whatever index B is. -/
theorem arith_of_left_ge (h : 8 ≤ ra.toNat) : arith op ra rb s = raise .outOfBoundsAddress ra.toNat s :=
  readReg_of_ge h s _

theorem arith_of_right_ge (ha : Names ra a) (h : 8 ≤ rb.toNat) :
    arith op ra rb s = raise .outOfBoundsAddress rb.toNat s := by
  rw [arith, readReg_of_names ha, readReg_of_ge h]

end

/-- Settles O14, by the rules of the handler for the sum. -/
theorem addWritesSum : Obligations.AddWritesSum := by
  simp only [Obligations.AddWritesSum, exec_add]
  exact ⟨fun ra rb => decode_default_encode (i := .add ra rb) rfl [],
    fun _ _ _ _ _ ha hb hp => arith_of_some_of_le ha hb (aluApply_add _ _) hp,
    fun _ _ _ _ _ ha hb hp => arith_of_some_of_eq ha hb (aluApply_add _ _) hp,
    fun _ _ _ hra => arith_of_left_ge hra,
    fun _ _ _ _ ha hrb => arith_of_right_ge ha hrb⟩

/-- Settles O15, by the rules of the handler for the product. -/
theorem mulWritesLowProduct : Obligations.MulWritesLowProduct := by
  simp only [Obligations.MulWritesLowProduct, exec_mul]
  exact ⟨fun ra rb => decode_default_encode (i := .mul ra rb) rfl [],
    fun _ _ _ _ _ ha hb hp => arith_of_some_of_le ha hb (aluApply_mul _ _) hp,
    fun _ _ _ _ _ ha hb hp => arith_of_some_of_eq ha hb (aluApply_mul _ _) hp,
    fun _ _ _ hra => arith_of_left_ge hra,
    fun _ _ _ _ ha hrb => arith_of_right_ge ha hrb⟩

/-- Settles O16, by the rules of the handler for the difference. -/
theorem subWritesDifference : Obligations.SubWritesDifference := by
  simp only [Obligations.SubWritesDifference, exec_sub]
  exact ⟨fun ra rb => decode_table_encode (.sub ra rb) [],
    fun _ _ _ _ _ ha hb hp => arith_of_some_of_le ha hb (aluApply_sub _ _) hp,
    fun _ _ _ _ _ ha hb hp => arith_of_some_of_eq ha hb (aluApply_sub _ _) hp,
    fun _ _ _ hra => arith_of_left_ge hra,
    fun _ _ _ _ ha hrb => arith_of_right_ge ha hrb⟩

/-- Settles O17: the quotient has a result exactly for a divisor that is not 0. -/
theorem divWritesQuotient : Obligations.DivWritesQuotient := by
  simp only [Obligations.DivWritesQuotient, exec_div]
  exact ⟨fun ra rb => decode_table_encode (.div ra rb) [],
    fun _ _ _ _ _ ha hb h0 hp => arith_of_some_of_le ha hb (aluApply_div h0 _) hp,
    fun _ _ _ _ _ ha hb h0 hp => arith_of_some_of_eq ha hb (aluApply_div h0 _) hp,
    fun _ _ _ _ _ ha hb h0 => arith_of_none ha hb (aluApply_eq_none.2 ⟨.inl rfl, h0⟩),
    fun _ _ _ hra => arith_of_left_ge hra,
    fun _ _ _ _ ha hrb => arith_of_right_ge ha hrb⟩

/-- Settles O18: the remainder has a result exactly for a divisor that is not 0. -/
theorem modWritesRemainder : Obligations.ModWritesRemainder := by
  simp only [Obligations.ModWritesRemainder, exec_mod]
  exact ⟨fun ra rb => decode_table_encode (.mod ra rb) [],
    fun _ _ _ _ _ ha hb h0 hp => arith_of_some_of_le ha hb (aluApply_mod h0 _) hp,
    fun _ _ _ _ _ ha hb h0 hp => arith_of_some_of_eq ha hb (aluApply_mod h0 _) hp,
    fun _ _ _ _ _ ha hb h0 => arith_of_none ha hb (aluApply_eq_none.2 ⟨.inr rfl, h0⟩),
    fun _ _ _ hra => arith_of_left_ge hra,
    fun _ _ _ _ ha hrb => arith_of_right_ge ha hrb⟩

end Machine
end Sys2Proof
end

/-! ### PUSH and POP: what each gives, and the round trip (R130, R132, R134)

Both end in the engine's advance; `exec_push_of_names` and `exec_pop_of_names` give the whole next state of each, and
the cases of a register other than SP and of SP itself are read off them. -/

section
namespace Sys2Proof.Machine

theorem Regs.set_set_same (r : Regs) (i : RegIx) (v w : Byte) : (r.set i v).set i w = r.set i w :=
  Regs.ext_get fun j => by
    by_cases hj : j = i
    · simp [hj]
    · simp [Regs.get_set_other, hj]

/-- Writing back what two registers held undoes every write to the first of them. -/
theorem Regs.set_set_get_set_get (r : Regs) (i j : RegIx) (v : Byte) :
    ((r.set i v).set j (r.get j)).set i (r.get i) = r :=
  Regs.ext_get fun k => by
    by_cases hi : k = i
    · simp [hi]
    · by_cases hj : k = j
      · subst hj
        simp [Regs.get_set_other _ _ hi]
      · simp [Regs.get_set_other, hi, hj]

theorem State.setReg_setReg_same (s : State) (i : RegIx) (v w : Byte) :
    (s.setReg i v).setReg i w = s.setReg i w := by
  rw [State.setReg, State.setReg_regs, Regs.set_set_same]
  rfl

theorem exec_push_of_ge {ra : Byte} (h : 8 ≤ ra.toNat) (s : State) :
    exec (.push ra) s = raise .outOfBoundsAddress ra.toNat (s.setSp (s.sp - 1)) := by
  rw [exec_push, execPush, readReg_of_ge h]

/-- POP with an operand that names a register, wherever its advance stays in memory (R132): SP is read for the
increment after the register is written, so `POP R7` increments the popped byte (decision D17). -/
theorem exec_pop_of_names {s : State} {ra : Byte} {a : RegIx} (ha : Names ra a) (hp : s.pc.toNat + 2 < memSize) :
    exec (.pop ra) s = .next (((s.setReg a (s.cell s.sp.toNat)).setSp
      ((s.setReg a (s.cell s.sp.toNat)).sp + 1)).setPc (s.pc + 2)) := by
  rw [exec_pop, execPop, memRead_byte, writeReg_of_names ha]
  exact advance_eq_pc_add hp

theorem exec_pop_of_ge {ra : Byte} (h : 8 ≤ ra.toNat) (s : State) :
    exec (.pop ra) s = raise .outOfBoundsAddress ra.toNat s := by
  rw [exec_pop, execPop, memRead_byte, writeReg_of_ge h]

/-- PUSH of a register other than SP stores what the register held before the instruction. -/
theorem exec_push_of_names_ne {s : State} {ra : Byte} {a : RegIx} (ha : Names ra a) (hne : a ≠ spIx)
    (hp : s.pc.toNat + 2 < memSize) :
    exec (.push ra) s = .next (((s.setSp (s.sp - 1)).setMem
      (s.mem.write (s.sp - 1).toNat (s.reg a))).setPc (s.pc + 2)) := by
  rw [exec_push_of_names ha hp, State.reg_setSp_other s _ hne]

/-- POP into a register other than SP moves SP on by 1. -/
theorem exec_pop_of_names_ne {s : State} {ra : Byte} {a : RegIx} (ha : Names ra a) (hne : a ≠ spIx)
    (hp : s.pc.toNat + 2 < memSize) :
    exec (.pop ra) s = .next (((s.setReg a (s.cell s.sp.toNat)).setSp (s.sp + 1)).setPc (s.pc + 2)) := by
  rw [exec_pop_of_names ha hp, State.sp_setReg, if_neg hne.symm]

/-- POP into SP itself leaves the popped byte plus 1 there (decision D17). -/
theorem exec_pop_of_names_sp {s : State} {ra : Byte} (ha : Names ra spIx) (hp : s.pc.toNat + 2 < memSize) :
    exec (.pop ra) s = .next ((s.setSp (s.cell s.sp.toNat + 1)).setPc (s.pc + 2)) := by
  rw [exec_pop_of_names ha hp, State.sp_setReg, if_pos rfl, State.setSp, State.setReg_setReg_same, State.setSp]

/-- Popping what a PUSH of the register `a` stored, where it stored it, brings back every register (R134). -/
theorem regs_pop_after_push (s : State) (a : RegIx) (m : Memory) :
    ((s.regs.set spIx (s.sp - 1)).set a ((m.write (s.sp - 1).toNat (s.reg a)).read (s.sp - 1).toNat)).set spIx
      (s.sp - 1 + 1) = s.regs := by
  rw [Memory.read_write_same, BitVec.sub_add_cancel]
  exact Regs.set_set_get_set_get s.regs spIx a _

/-- Settles O23: the POP reads the cell the PUSH wrote and undoes its decrement of SP. -/
theorem pushThenPopRestores : Obligations.PushThenPopRestores := by
  intro s ra a ha hne hp
  have hpush : s.pc.toNat + 2 < memSize := fetch_fits (by omega)
  have hpop : (s.pc + 2).toNat + 2 < memSize := by
    rw [toNat_pc_add_two hpush, memSize]
    omega
  refine ⟨_, _, exec_push_of_names_ne ha hne hpush, exec_pop_of_names_ne ha hne hpop, ?_⟩
  have hpc : s.pc + 2 + 2 = s.pc + 4 := BitVec.add_assoc s.pc 2 2
  exact (State.mk.injEq ..).mpr ⟨regs_pop_after_push s a s.mem, hpc, rfl, rfl, rfl, rfl, rfl⟩

/-- Settles O19: the register is read after SP is decremented, which only `PUSH R7` sees. -/
theorem pushStoresBelowStackPointer : Obligations.PushStoresBelowStackPointer := by
  refine ⟨fun ra x => decode_default_encode (i := .push ra) rfl [x], fun s ra a ha hp => ?_,
    fun s ra hra => exec_push_of_ge hra s⟩
  rw [exec_push_of_names ha (fetch_fits hp), State.reg_setSp]
  rfl

/-- Settles O20: SP is incremented after the register is written, which only `POP R7` sees. -/
theorem popLoadsAndIncrements : Obligations.PopLoadsAndIncrements :=
  ⟨fun ra x => decode_default_encode (i := .pop ra) rfl [x],
    fun _ _ _ ha hne hp => exec_pop_of_names_ne ha hne (fetch_fits hp),
    fun _ _ ha hp => exec_pop_of_names_sp ha (fetch_fits hp),
    fun s _ hra => exec_pop_of_ge hra s⟩

end Sys2Proof.Machine
end

/-! ### CALL and RET: what each gives, and the return (R140, R142, R144)

Neither ends in the engine's advance (R85). CALL reads its target register last, so a bad index faults in a state that
has SP decremented and the return address stored already; that state is `State.pushReturn`. -/

section
namespace Sys2Proof.Machine

/-- What CALL does before it reads its target register: SP is decremented and the return address `pc + 2` is stored
at the new SP (R140). -/
def State.pushReturn (s : State) : State :=
  (s.setSp (s.sp - 1)).setMem (s.mem.write (s.sp - 1).toNat (s.pc + 2))

@[simp] theorem State.pushReturn_sp (s : State) : s.pushReturn.sp = s.sp - 1 := by
  rw [State.pushReturn, State.setMem_sp, State.sp_setSp]

@[simp] theorem State.pushReturn_cell_sp (s : State) : s.pushReturn.cell (s.sp - 1).toNat = s.pc + 2 := by
  rw [State.pushReturn, State.setMem_cell, Memory.read_write_same]

theorem State.pushReturn_reg (s : State) (a : RegIx) :
    s.pushReturn.reg a = if a = spIx then s.sp - 1 else s.reg a := by
  rw [State.pushReturn, State.setMem_reg, State.reg_setSp]

/-- The state in the fields the obligation writes: the return address formed as an integer is the same byte (R17,
log entry 5). -/
theorem State.pushReturn_eq (s : State) :
    s.pushReturn = { s with
      regs := s.regs.set 7 (s.regs.get 7 - 1)
      mem := s.mem.write (s.regs.get 7 - 1).toNat (BitVec.ofNat 8 (s.pc.toNat + 2)) } := by
  rw [ofNat_pc_add]
  rfl

theorem exec_call_eq_readReg (ra : Byte) (s : State) :
    exec (.call ra) s = readReg ra s.pushReturn fun target => .next (s.pushReturn.setPc target) := by
  rw [exec_call, execCall, memWrite_byte, State.sp_setSp]
  rfl

theorem exec_call_of_names {ra : Byte} {a : RegIx} (ha : Names ra a) (s : State) :
    exec (.call ra) s = .next (s.pushReturn.setPc (s.pushReturn.reg a)) := by
  rw [exec_call_eq_readReg, readReg_of_names ha]

theorem exec_call_of_ge {ra : Byte} (h : 8 ≤ ra.toNat) (s : State) :
    exec (.call ra) s = raise .outOfBoundsAddress ra.toNat s.pushReturn := by
  rw [exec_call_eq_readReg, readReg_of_ge h]

theorem exec_ret_eq (s : State) :
    exec .ret s = .next ((s.setPc (s.cell s.sp.toNat)).setSp (s.sp + 1)) := by
  rw [exec_ret, execRet, memRead_byte]

/-- Settles O24: RET reads the return address where CALL stored it and undoes CALL's decrement of SP. -/
theorem callThenRetReturns : Obligations.CallThenRetReturns := by
  intro s ra a ha hp
  refine ⟨_, exec_call_of_names ha s, fun u hsp hcell => ?_⟩
  rw [State.setPc_sp, State.pushReturn_sp] at hsp hcell
  rw [State.setPc_cell, State.pushReturn_cell_sp] at hcell
  refine ⟨_, exec_ret_eq u, ?_, ?_⟩
  · rw [State.setSp_pc, State.setPc_pc, hsp, hcell, toNat_pc_add_two (fetch_fits hp)]
  · rw [State.sp_setSp, hsp, BitVec.sub_add_cancel]

/-- Settles O21: the register is read after SP is decremented, which only `CALL R7` sees, and its index is checked
after the return address is stored. -/
theorem callStoresReturnAddress : Obligations.CallStoresReturnAddress := by
  refine ⟨fun ra x => decode_default_encode (i := .call ra) rfl [x], fun s ra a ha _ => ?_, fun s ra hra _ => ?_⟩
  · rw [exec_call_of_names ha, State.pushReturn_reg, State.pushReturn_eq]
    rfl
  · rw [exec_call_of_ge hra, State.pushReturn_eq]
    rfl

/-- Settles O22: the address popped is a byte, so reading it cannot fault. -/
theorem retPopsProgramCounter : Obligations.RetPopsProgramCounter :=
  ⟨fun x y => decode_default_encode (i := .ret) rfl [x, y], exec_ret_eq⟩

end Sys2Proof.Machine
end

/-! ### CMP, JMP, JEQ and JNE: what each gives, and the flags a CMP leaves (R150 to R157)

CMP is an advance of the state with the compared flags, so what it leaves in them is `compareFlags`, of which the laws
come first. JMP and the taken paths of JEQ and JNE are one `jumpTo`; the paths not taken are an advance by 2. -/

section
namespace Sys2Proof.Machine

/-! The flags by the policy (R150, R151, decision D4). -/

/-- Exactly one of the three unsigned comparisons holds, so exactly one flag is set, whatever stood before. -/
theorem compareFlags_clearThenSet_count (a b : Byte) (f : Flags) :
    (compareFlags .clearThenSet a b f).l.toNat + (compareFlags .clearThenSet a b f).g.toNat +
      (compareFlags .clearThenSet a b f).e.toNat = 1 := by
  simp only [compareFlags]
  rcases lt_trichotomy a.toNat b.toNat with h | h | h
  · simp [h, h.ne, h.not_gt]
  · simp [h]
  · simp [h, h.ne', h.not_gt]

theorem compareFlags_clearThenSet (a b : Byte) (f : Flags) :
    compareFlags .clearThenSet a b f =
      ⟨decide (a.toNat < b.toNat), decide (b.toNat < a.toNat), decide (a = b)⟩ := by
  simp [compareFlags, BitVec.toNat_inj]

/-- Under `set_only` the one flag whose comparison holds is set and the others stay. -/
theorem compareFlags_setOnly (a b : Byte) (f : Flags) :
    compareFlags .setOnly a b f =
      if a.toNat < b.toNat then { f with l := true }
      else if b.toNat < a.toNat then { f with g := true }
      else { f with e := true } := by
  simp only [compareFlags]
  rcases lt_trichotomy a.toNat b.toNat with h | h | h
  · simp [h, h.ne, h.not_gt]
  · simp [h]
  · simp [h, h.ne', h.not_gt]

/-- Every flag set in `f` is set in `g`. -/
def Flags.Subset (f g : Flags) : Prop :=
  (f.l = true → g.l = true) ∧ (f.g = true → g.g = true) ∧ (f.e = true → g.e = true)

theorem Flags.Subset.refl (f : Flags) : f.Subset f := ⟨id, id, id⟩

theorem Flags.subset_compareFlags_setOnly (a b : Byte) (f : Flags) : f.Subset (compareFlags .setOnly a b f) :=
  ⟨fun h => Bool.or_eq_true_iff.2 (.inl h), fun h => Bool.or_eq_true_iff.2 (.inl h),
    fun h => Bool.or_eq_true_iff.2 (.inl h)⟩

/-! CMP (R151). -/

section
variable {ra rb : Byte} {a b : RegIx} {s t : State}

theorem exec_cmp_of_names (ha : Names ra a) (hb : Names rb b) :
    exec (.cmp ra rb) s =
      advance 3 (s.setFlags (compareFlags s.cfg.cmpFlagPolicy (s.reg a) (s.reg b) s.flags)) := by
  rw [exec_cmp, execCmp, readReg_of_names ha, readReg_of_names hb]

/-- Index A is checked first, whatever index B is. -/
theorem exec_cmp_of_left_ge (h : 8 ≤ ra.toNat) :
    exec (.cmp ra rb) s = raise .outOfBoundsAddress ra.toNat s := by
  rw [exec_cmp, execCmp, readReg_of_ge h]

theorem exec_cmp_of_right_ge (ha : Names ra a) (h : 8 ≤ rb.toNat) :
    exec (.cmp ra rb) s = raise .outOfBoundsAddress rb.toNat s := by
  rw [exec_cmp, execCmp, readReg_of_names ha, readReg_of_ge h]

/-- The flags are written before the advance, so they are there even where it faults. -/
theorem exec_cmp_next_flags (ha : Names ra a) (hb : Names rb b) (h : exec (.cmp ra rb) s = .next t) :
    t.flags = compareFlags s.cfg.cmpFlagPolicy (s.reg a) (s.reg b) s.flags := by
  rw [exec_cmp_of_names ha hb] at h
  obtain ⟨-, hflags, -, -, -⟩ := advance_next_keeps h
  exact hflags

end

/-- Settles O30: whether or not its advance faults, the flags are those of one comparison. -/
theorem cmpLeavesExactlyOneFlag : Obligations.CmpLeavesExactlyOneFlag := by
  intro s t ra rb hpol hra hrb h
  have hflags := exec_cmp_next_flags (a := ⟨ra.toNat, hra⟩) (b := ⟨rb.toNat, hrb⟩) rfl rfl h
  rw [hflags, hpol]
  exact compareFlags_clearThenSet_count _ _ _

/-- A CMP under `set_only` clears no flag: it faults with the flags as they were, or only sets. -/
theorem exec_cmp_setOnly_flags_subset {ra rb : Byte} {s t : State} (hpol : s.cfg.cmpFlagPolicy = .setOnly)
    (h : exec (.cmp ra rb) s = .next t) : s.flags.Subset t.flags := by
  rcases execCmp_next h with ⟨a, b, ha, hb, -⟩ | ⟨-, rfl⟩ | ⟨a, -, -, rfl⟩
  · rw [exec_cmp_next_flags ha hb h, hpol]
    exact Flags.subset_compareFlags_setOnly _ _ _
  all_goals exact .refl _

/-- Settles O31: a step that changes the flags runs a CMP. -/
theorem flagsAccumulateUnderSetOnly : Obligations.FlagsAccumulateUnderSetOnly := by
  intro s t hpol h
  change s.flags.Subset t.flags
  by_cases hne : t.flags = s.flags
  · rw [hne]
    exact .refl _
  · obtain ⟨i, -, h⟩ := step_next_changes State.flags (fun _ _ => rfl) (fun _ _ _ => rfl) h hne
    obtain ⟨ra, rb, rfl⟩ := (exec_next_flags h).resolve_left hne
    exact exec_cmp_setOnly_flags_subset hpol h

/-- Settles O25: the flags are written before the advance, which reaches 255 from 252 and faults from 253. -/
theorem cmpSetsFlagsByPolicy : Obligations.CmpSetsFlagsByPolicy := by
  refine ⟨fun ra rb => decode_default_encode (i := .cmp ra rb) rfl [], fun s ra rb a b ha hb => ?_,
    fun s ra rb hra => exec_cmp_of_left_ge hra, fun s ra rb a ha hrb => exec_cmp_of_right_ge ha hrb⟩
  refine ⟨compareFlags s.cfg.cmpFlagPolicy (s.reg a) (s.reg b) s.flags, fun hpol => ?_, fun hpol => ?_,
    fun hp => ?_, fun hp => ?_⟩
  · rw [hpol]
    exact compareFlags_clearThenSet _ _ _
  · rw [hpol]
    exact compareFlags_setOnly _ _ _
  · rw [exec_cmp_of_names ha hb]
    exact advance_eq_pc_add (show s.pc.toNat + 3 < 256 by omega)
  · rw [exec_cmp_of_names ha hb]
    exact advance_of_eq (show s.pc.toNat + 3 = 256 by omega)

/-! The jump to a register (R153), which JEQ and JNE share where they are taken (R154, R156). -/

theorem jumpTo_of_names {ra : Byte} {a : RegIx} (ha : Names ra a) (s : State) :
    jumpTo ra s = .next (s.setPc (s.reg a)) := by
  rw [jumpTo, readReg_of_names ha]

theorem jumpTo_of_ge {ra : Byte} (h : 8 ≤ ra.toNat) (s : State) :
    jumpTo ra s = raise .outOfBoundsAddress ra.toNat s := by
  rw [jumpTo, readReg_of_ge h]

section
variable {s : State}

theorem exec_jeq_of_equal (he : s.flags.e = true) (ra : Byte) : exec (.jeq ra) s = jumpTo ra s := if_pos he

theorem exec_jne_of_not_equal (he : s.flags.e = false) (ra : Byte) : exec (.jne ra) s = jumpTo ra s := if_pos he

/-- Not taken, the operand byte is not looked at (decision D26). -/
theorem exec_jeq_of_not_equal (he : s.flags.e = false) (hp : s.pc.toNat ≤ 253) (ra : Byte) :
    exec (.jeq ra) s = .next (s.setPc (s.pc + 2)) := by
  rw [exec_jeq, execJeq, if_neg (Bool.not_eq_true _ ▸ he)]
  exact advance_eq_pc_add (fetch_fits hp)

/-- Not taken, the operand byte is not looked at (decision D26). -/
theorem exec_jne_of_equal (he : s.flags.e = true) (hp : s.pc.toNat ≤ 253) (ra : Byte) :
    exec (.jne ra) s = .next (s.setPc (s.pc + 2)) := by
  rw [exec_jne, execJne, if_neg (Bool.not_eq_false _ ▸ he)]
  exact advance_eq_pc_add (fetch_fits hp)

end

/-- Settles O26: a jump to `pc` changes nothing, and the fetch at a target of 254 or 255 leaves memory. -/
theorem jmpGoesToRegister : Obligations.JmpGoesToRegister := by
  refine ⟨fun ra x => decode_default_encode (i := .jmp ra) rfl [x], fun s ra a ha => ?_,
    fun s ra hra => jumpTo_of_ge hra s⟩
  have hjump : exec (.jmp ra) s = .next (s.setPc (s.reg a)) := jumpTo_of_names ha s
  refine ⟨hjump, fun hself => ?_, fun hr htarget => ⟨_, hjump, ?_⟩⟩
  · rw [hjump, State.reg, hself]
    rfl
  · exact fetchPastEndOfMemoryFaults (s.setPc (s.reg a)) hr htarget

/-- Settles O27, by E: a jump, or an advance that stays in memory. -/
theorem jeqJumpsWhenEqualSet : Obligations.JeqJumpsWhenEqualSet :=
  ⟨fun ra x => decode_default_encode (i := .jeq ra) rfl [x],
    fun s ra _ he ha => (exec_jeq_of_equal he ra).trans (jumpTo_of_names ha s),
    fun s ra he hra => (exec_jeq_of_equal he ra).trans (jumpTo_of_ge hra s),
    fun _ ra he hp => exec_jeq_of_not_equal he hp ra⟩

/-- Settles O28, by E: a jump, or an advance that stays in memory. -/
theorem jneJumpsWhenEqualClear : Obligations.JneJumpsWhenEqualClear :=
  ⟨fun ra x => decode_default_encode (i := .jne ra) rfl [x],
    fun s ra _ he ha => (exec_jne_of_not_equal he ra).trans (jumpTo_of_names ha s),
    fun s ra he hra => (exec_jne_of_not_equal he ra).trans (jumpTo_of_ge hra s),
    fun _ ra he hp => exec_jne_of_equal he hp ra⟩

/-- Settles O29, by E: O27 and O28 give what each of the two does. -/
theorem exactlyOneOfJeqJneJumps : Obligations.ExactlyOneOfJeqJneJumps := by
  intro s ra a ha hp
  obtain ⟨-, hjeqTaken, -, hjeqNot⟩ := jeqJumpsWhenEqualSet
  obtain ⟨-, hjneTaken, -, hjneNot⟩ := jneJumpsWhenEqualClear
  cases he : s.flags.e with
  | true => exact .inl ⟨hjeqTaken s ra a he ha, hjneNot s ra he hp, rfl⟩
  | false => exact .inr ⟨hjeqNot s ra he hp, hjneTaken s ra a he ha, rfl⟩

end Sys2Proof.Machine
end

/-! ### The faults: what raises each, what had been done by then, and what its record says (R171, R172, R176, R177)

`exec_next` says how a cycle may end; `exec_completes_or_faults` says of the faults, besides, which cause and which
number each carries and in what state it is raised. Precision and the invariant are read off the few shapes. -/

section
namespace Sys2Proof.Machine

/-- The instruction `i` ran to its end from `s`: its effect, then nothing but a new `pc`. -/
def Completes (s : State) (i : Instr) (t : State) : Prop :=
  ∃ (u : State) (a : Byte), Effect s i u ∧ t = u.setPc a

/-- `ExecFaults s i t`: run from `s`, the instruction `i` faults and leaves `t` (R176, R177). -/
inductive ExecFaults (s : State) : Instr → State → Prop where
  /-- a register index above 7, before anything was written -/
  | index {i : Instr} {x : Byte} (h : 8 ≤ x.toNat) : ExecFaults s i (s.raised .outOfBoundsAddress x.toNat)
  /-- PUSH reads its register after it has decremented SP (R130) -/
  | pushIndex {ra : Byte} (h : 8 ≤ ra.toNat) :
      ExecFaults s (.push ra) ((s.setSp (s.sp - 1)).raised .outOfBoundsAddress ra.toNat)
  /-- CALL reads its register after it has stored the return address (R140) -/
  | callIndex {ra : Byte} (h : 8 ≤ ra.toNat) :
      ExecFaults s (.call ra) (s.pushReturn.raised .outOfBoundsAddress ra.toNat)
  /-- DIV or MOD by a register that holds 0 (R115) -/
  | zeroDivisor {i : Instr} {x : Byte} {b : RegIx} (hi : i.op.aluExt = true) (hb : Names x b) (h : s.reg b = 0) :
      ExecFaults s i (s.raised .divideByZero x.toNat)
  /-- the advance leaves memory, after the whole effect (R17) -/
  | pastEnd {i : Instr} {u : State} (hu : Effect s i u) (h : memSize ≤ u.pc.toNat + (i.operands.length + 1)) :
      ExecFaults s i (u.raised .outOfBoundsAddress (u.pc.toNat + (i.operands.length + 1)))

/-! What an instruction can do, with its faults in full. -/

theorem Effect.completes_or_faults {i : Instr} {s u t : State} (hu : Effect s i u)
    (h : advance (i.operands.length + 1) u = .next t) : Completes s i t ∨ ExecFaults s i t := by
  rcases advance_next h with ⟨-, rfl⟩ | ⟨hge, rfl⟩
  · exact .inl ⟨u, _, hu, rfl⟩
  · exact .inr (.pastEnd hu hge)

theorem jumpTo_completes_or_faults {i : Instr} {ra : Byte} {s t : State} (h : jumpTo ra s = .next t) :
    Completes s i t ∨ ExecFaults s i t := by
  rcases jumpTo_next h with ⟨a, -, rfl⟩ | ⟨hra, rfl⟩
  · exact .inl ⟨s, _, .nothing, rfl⟩
  · exact .inr (.index hra)

theorem arith_completes_or_faults {i : Instr} {op : AluOp} {ra rb : Byte} {s t : State}
    (hw : ∀ a, Names ra a → WritesReg i a) (hlen : i.operands.length = 2)
    (hext : op = .div ∨ op = .mod → i.op.aluExt = true) (h : arith op ra rb s = .next t) :
    Completes s i t ∨ ExecFaults s i t := by
  rcases arith_next h with ⟨a, b, v, ha, -, -, h⟩ | ⟨a, b, -, hb, hnone, rfl⟩ | ⟨hra, rfl⟩ | ⟨a, -, hrb, rfl⟩
  · exact (Effect.register (hw a ha) v).completes_or_faults (by rwa [hlen])
  · obtain ⟨hop, hzero⟩ := aluApply_eq_none.1 hnone
    exact .inr (.zeroDivisor (hext hop) hb hzero)
  · exact .inr (.index hra)
  · exact .inr (.index hrb)

/-- Every instruction runs to its end or faults in one of the listed ways. -/
theorem exec_completes_or_faults {i : Instr} {s t : State} (h : exec i s = .next t) :
    Completes s i t ∨ ExecFaults s i t := by
  cases i with
  | hlt => exact Effect.halted.completes_or_faults h
  | ldi ra imm =>
    rcases execLdi_next h with ⟨a, ha, h⟩ | ⟨hra, rfl⟩
    · exact (Effect.register (i := .ldi ra imm) ha imm).completes_or_faults h
    · exact .inr (.index hra)
  | prn ra =>
    rcases execPrn_next h with ⟨a, ha, h⟩ | ⟨hra, rfl⟩
    · exact (Effect.emitted ha).completes_or_faults h
    · exact .inr (.index hra)
  | add ra rb => exact arith_completes_or_faults (op := .add) (fun _ ha => ha) rfl (by simp) h
  | sub ra rb => exact arith_completes_or_faults (op := .sub) (fun _ ha => ha) rfl (by simp) h
  | mul ra rb => exact arith_completes_or_faults (op := .mul) (fun _ ha => ha) rfl (by simp) h
  | div ra rb => exact arith_completes_or_faults (op := .div) (fun _ ha => ha) rfl (fun _ => rfl) h
  | mod ra rb => exact arith_completes_or_faults (op := .mod) (fun _ ha => ha) rfl (fun _ => rfl) h
  | cmp ra rb =>
    rcases execCmp_next h with ⟨a, b, -, -, h⟩ | ⟨hra, rfl⟩ | ⟨a, -, hrb, rfl⟩
    · exact (Effect.compared (ra := ra) (rb := rb) _).completes_or_faults h
    · exact .inr (.index hra)
    · exact .inr (.index hrb)
  | push ra =>
    rcases execPush_next h with ⟨a, ha, h⟩ | ⟨hra, rfl⟩
    · exact (Effect.pushed ha _).completes_or_faults h
    · exact .inr (.pushIndex hra)
  | pop ra =>
    rcases execPop_next h with ⟨a, ha, h⟩ | ⟨hra, rfl⟩
    · exact (Effect.popped ha _ _).completes_or_faults h
    · exact .inr (.index hra)
  | call ra =>
    rcases execCall_next h with ⟨a, -, rfl⟩ | ⟨hra, rfl⟩
    · exact .inl ⟨_, _, .called _, rfl⟩
    · exact .inr (.callIndex hra)
  | ret =>
    rw [exec_ret, execRet_eq] at h
    cases h
    exact .inl ⟨_, s.cell s.sp.toNat, .register (i := .ret) (a := spIx) rfl (s.sp + 1), rfl⟩
  | jmp ra => exact jumpTo_completes_or_faults h
  | jeq ra =>
    rcases execJeq_next h with ⟨-, h⟩ | ⟨-, h⟩
    · exact jumpTo_completes_or_faults h
    · exact Effect.nothing.completes_or_faults h
  | jne ra =>
    rcases execJne_next h with ⟨-, h⟩ | ⟨-, h⟩
    · exact jumpTo_completes_or_faults h
    · exact Effect.nothing.completes_or_faults h

/-- An instruction of a running engine that ran to its end has not faulted. -/
theorem Completes.not_faulted {i : Instr} {s t : State} {r : FaultRecord} (hr : s.status = .running)
    (h : Completes s i t) : t.status ≠ .faulted r := by
  obtain ⟨u, a, hu, rfl⟩ := h
  rw [State.setPc_status]
  rcases hu.status with hus | ⟨-, hus⟩ <;> simp [hus, hr]

/-- An advance that fails in a cycle past the fetch is by 3, at 253 (R82, R102): no instruction is longer. -/
theorem operands_length_of_advance_ge {i : Instr} {u : State} (hp : u.pc.toNat + 2 < memSize)
    (h : memSize ≤ u.pc.toNat + (i.operands.length + 1)) : i.operands.length = 2 ∧ u.pc.toNat = 253 := by
  have hlen := Instr.operands_length i ▸ Format.operandCount_le i.op.format
  rw [memSize] at hp h
  omega

/-- An instruction with two operands writes registers or flags and nothing else. -/
theorem Effect.eq_of_operands_length {i : Instr} {s u : State} (h : Effect s i u) (hlen : i.operands.length = 2) :
    u = { s with regs := u.regs, flags := u.flags } := by
  cases h with
  | nothing | register | compared => rfl
  | halted | popped | emitted | pushed | called => simp [Instr.operands] at hlen

/-! What a step that faults has done. -/

/-- `StepFaults s t`: the cycle that a running engine begins in `s` faults and leaves `t` (R176). -/
inductive StepFaults (s : State) : State → Prop where
  /-- the fetch leaves memory (R82) -/
  | fetch (hp : memSize ≤ s.pc.toNat + 2) : StepFaults s (s.raised .outOfBoundsAddress 256)
  /-- an unbound byte under the policy `fault` (R86) -/
  | unbound (hp : s.pc.toNat + 2 < memSize) (hpol : s.cfg.illegalOpcodePolicy = .fault)
      (hl : s.cfg.lookup (s.cell s.pc.toNat) = none) :
      StepFaults s (s.raised .illegalOpcode (s.cell s.pc.toNat).toNat)
  /-- an unbound byte under the policy `skip`, whose advance leaves memory (R86) -/
  | skip (hp : s.pc.toNat + 2 < memSize) (hpol : s.cfg.illegalOpcodePolicy = .skip)
      (h : memSize ≤ s.pc.toNat + opcodeLength (s.cell s.pc.toNat)) :
      StepFaults s (s.raised .outOfBoundsAddress (s.pc.toNat + opcodeLength (s.cell s.pc.toNat)))
  /-- a fault of the current instruction -/
  | exec {i : Instr} {t : State} (hi : s.current? = some i) (h : ExecFaults s i t) : StepFaults s t

theorem step_next_faulted {s t : State} {r : FaultRecord} (hr : s.status = .running) (h : step s = .next t)
    (ht : t.status = .faulted r) : StepFaults s t := by
  rcases step_next h with ⟨hstop, -⟩ | ⟨-, hp, rfl⟩ | ⟨-, hp, o, hl, h⟩ | ⟨-, hp, hl, h⟩
  · exact absurd hr hstop
  · exact .fetch hp
  · rcases exec_completes_or_faults h with hc | hf
    · exact absurd ht (hc.not_faulted hr)
    · exact .exec (current?_of_lookup hr hp hl) hf
  · rcases illegalOpcode_next h with ⟨hpol, rfl⟩ | ⟨hpol, h⟩
    · exact .unbound hp hpol hl
    · rcases advance_next h with ⟨-, rfl⟩ | ⟨hge, rfl⟩
      · simp [hr] at ht
      · exact .skip hp hpol hge

/-! Each record is truthful (R171, R172). -/

/-- The other direction of `fetch_fits`. -/
theorem pc_le_of_fetch_fits {s : State} (h : s.pc.toNat + 2 < memSize) : s.pc.toNat ≤ 253 :=
  Nat.le_of_lt_succ (Nat.lt_of_add_lt_add_right h)

/-- A record of `OutOfBoundsAddress` is truthful where its number is one the rules allow at `pc` (R176). -/
theorem raised_outOfBounds_truthful {s : State} {n : Nat}
    (h : (8 ≤ n ∧ n ≤ 255 ∧ s.pc.toNat ≤ 253) ∨ (n = 256 ∧ 252 ≤ s.pc.toNat) ∨
      (n = 257 ∧ s.pc.toNat = 253 ∧ s.cfg.illegalOpcodePolicy = .skip)) :
    (s.raised .outOfBoundsAddress n).status.truthful (s.raised .outOfBoundsAddress n) := by
  have hn : (BitVec.ofNat 9 n).toNat = n := Nat.mod_eq_of_lt (by omega)
  refine ⟨rfl, ?_⟩
  simpa only [State.raised_pc, State.raised_cfg, hn] using h

/-- A register index above 7 is truthful in whatever state of the cycle it is found. -/
theorem raised_index_truthful {s : State} {x : Byte} (hx : 8 ≤ x.toNat) (hp : s.pc.toNat ≤ 253) :
    (s.raised .outOfBoundsAddress x.toNat).status.truthful (s.raised .outOfBoundsAddress x.toNat) :=
  raised_outOfBounds_truthful (.inl ⟨hx, Nat.le_of_lt_succ x.isLt, hp⟩)

/-- A byte fits the 9-bit `info` (R26). -/
theorem toNat_info_byte (x : Byte) : (BitVec.ofNat 9 x.toNat).toNat = x.toNat :=
  Nat.mod_eq_of_lt (Nat.lt_trans x.isLt (by decide))

theorem ExecFaults.truthful {i : Instr} {s t : State} (hp : s.pc.toNat ≤ 253) (hd : s.cfg.dispatches i.op = true)
    (h : ExecFaults s i t) : t.status.truthful t := by
  cases h with
  | index hx => exact raised_index_truthful hx hp
  | pushIndex hra => exact raised_index_truthful hra hp
  | callIndex hra => exact raised_index_truthful hra hp
  | @zeroDivisor _ x b hi hb hzero =>
    have hext : s.cfg.dispatchAluExt = true := by simpa [Config.dispatches, hi] using hd
    exact ⟨rfl, hp, hext, b, (toNat_info_byte x).trans hb, hzero⟩
  | pastEnd hu hge =>
    obtain ⟨hlen, hpc⟩ := operands_length_of_advance_ge (fetch_fits (hu.pc ▸ hp)) hge
    exact raised_outOfBounds_truthful (.inr (.inl ⟨by rw [hlen, hpc], by omega⟩))

theorem StepFaults.truthful {s t : State} (h : StepFaults s t) : t.status.truthful t := by
  cases h with
  | fetch hp =>
    rw [memSize] at hp
    exact raised_outOfBounds_truthful (.inr (.inl ⟨rfl, by omega⟩))
  | unbound hp hpol hl =>
    exact ⟨rfl, pc_le_of_fetch_fits hp, hpol, hl, toNat_info_byte _⟩
  | skip hp hpol hge =>
    obtain ⟨-, -, hlen⟩ := lengthFormulaCountsConsumedBytes.1 (s.cell s.pc.toNat)
    rw [memSize] at hp hge
    refine raised_outOfBounds_truthful (.inr ?_)
    by_cases h256 : s.pc.toNat + opcodeLength (s.cell s.pc.toNat) = 256
    · exact .inl ⟨h256, by omega⟩
    · exact .inr ⟨by omega, by omega, hpol⟩
  | exec hi h =>
    obtain ⟨-, hp, hl, -⟩ := current?_some hi
    exact h.truthful (pc_le_of_fetch_fits hp) (Config.lookup_some hl).1

/-! The canonical form of memory. -/

theorem Effect.mem_wf {i : Instr} {s u : State} (h : Effect s i u) (hm : s.mem.wf = true) : u.mem.wf = true := by
  cases h with
  | pushed _ v | called v => exact Memory.wf_write v hm (byte_lt_memSize _)
  | _ => exact hm

theorem step_next_mem_wf {s t : State} (hm : s.mem.wf = true) (h : step s = .next t) : t.mem.wf = true := by
  rcases step_next_current h with ⟨i, -, h⟩ | ⟨a, rfl⟩ | ⟨c, n, rfl⟩
  · obtain ⟨u, hu, ht⟩ := exec_next h
    obtain ⟨-, -, hmem, -⟩ := ht.keeps
    exact hmem ▸ hu.mem_wf hm
  · exact hm
  · exact hm

/-- A halted engine stands one past the HLT byte it has run (R87). -/
theorem step_next_halted_truthful {s t : State} (hr : s.status = .running) (h : step s = .next t)
    (ht : t.status = .halted) : t.status.truthful t := by
  obtain ⟨hcur, rfl⟩ := haltedOnlyByHlt s t hr h ht
  obtain ⟨-, hp, hl, -⟩ := current?_some hcur
  obtain ⟨-, hbyte⟩ := Config.lookup_some hl
  have hle := pc_le_of_fetch_fits hp
  have hpc : (s.pc + 1).toNat = s.pc.toNat + 1 :=
    BitVec.toNat_add_of_lt (show s.pc.toNat + 1 < 2 ^ 8 by omega)
  have hcell : s.cell ((s.pc + 1).toNat - 1) = s.cfg.opcodes.hlt := by
    rw [hpc, Nat.add_sub_cancel]
    exact hbyte.symm
  exact ⟨show 1 ≤ (s.pc + 1).toNat by omega, show (s.pc + 1).toNat ≤ 254 by omega, hcell⟩

/-- Settles O48: memory changes by a write at a byte address, and the status by HLT or by a fault whose record is
truthful. -/
theorem invariantKeptByStep : Obligations.InvariantKeptByStep := by
  rintro s t ⟨hm, hstatus⟩ h
  refine ⟨step_next_mem_wf hm h, ?_⟩
  by_cases hr : s.status = .running
  · rcases ht : t.status with _ | _ | r
    · trivial
    · exact ht ▸ step_next_halted_truthful hr h ht
    · exact ht ▸ (step_next_faulted hr h ht).truthful
  · rw [step_of_stopped hr] at h
    cases h
    exact hstatus

/-- Settles O37, by the ways a cycle can fault. -/
theorem faultingCycleIsPrecise : Obligations.FaultingCycleIsPrecise := by
  intro s t r hr h ht
  cases step_next_faulted hr h ht with
  | fetch | unbound | skip =>
    cases ht
    exact ⟨rfl, .inl rfl⟩
  | @exec i _ hi hf =>
    cases hf with
    | index | zeroDivisor =>
      cases ht
      exact ⟨rfl, .inl rfl⟩
    | pushIndex hra =>
      cases ht
      exact ⟨rfl, .inr (.inl ⟨_, hi, hra, rfl⟩)⟩
    | callIndex hra =>
      cases ht
      exact ⟨rfl, .inr (.inr (.inl ⟨_, hi, hra, rfl⟩))⟩
    | pastEnd hu hge =>
      obtain ⟨-, hp, -, -⟩ := current?_some hi
      obtain ⟨hlen, hpc⟩ := operands_length_of_advance_ge (hu.pc ▸ hp) hge
      cases ht
      refine ⟨hu.pc, .inr (.inr (.inr ⟨i, hi, hlen, hu.pc ▸ hpc, rfl, ?_, ?_⟩))⟩
      · rw [hlen, hpc]
        rfl
      · exact congrArg (State.setStatus · _) (hu.eq_of_operands_length hlen)

/-! The codes (R171). -/

/-- No cause has the code 0, which the status interface shows where there is no fault (R33). -/
theorem Cause.code_ne_zero (c : Cause) : c.code ≠ 0 := by
  cases c <;> decide

/-- Settles O36: the codes are read off; that 0 means no fault goes by the status. -/
theorem faultEntryAndCauseCodes : Obligations.FaultEntryAndCauseCodes := by
  refine ⟨fun _ _ _ => rfl, rfl, rfl, rfl, rfl, fun s => ?_⟩
  rw [State.causeCode]
  rcases s.status with _ | _ | r
  · exact iff_of_true rfl nofun
  · exact iff_of_true rfl nofun
  · exact iff_of_false r.cause.code_ne_zero fun h => h r rfl

end Sys2Proof.Machine
end

/-! ### Running into memory that the loader did not fill (R208)

Under `skip`, a cycle on an unbound 0 byte keeps all that the next such cycle needs and leaves `pc` one nearer to
254; so a run is an induction on the distance from `pc` to 254. -/

section
namespace Sys2Proof.Machine

/-- Below 254 the next byte's address is the integer sum. -/
theorem toNat_pc_add_one {s : State} (hp : s.pc.toNat ≤ 253) : (s.pc + 1).toNat = s.pc.toNat + 1 :=
  BitVec.toNat_add_of_lt (show s.pc.toNat + 1 < 2 ^ 8 by omega)

/-- Under `skip`, an unbound 0 byte has the length 1 (R71): the cycle moves `pc` by one and does nothing else. -/
theorem step_of_zero_of_skip {s : State} (hr : s.status = .running) (hl : s.cfg.lookup 0 = none)
    (hskip : s.cfg.illegalOpcodePolicy = .skip) (hp : s.pc.toNat ≤ 253) (hz : s.cell s.pc.toNat = 0) :
    step s = .next (s.setPc (s.pc + 1)) := by
  rw [step_of_lookup_none hr (fetch_fits hp) (by rw [hz, hl]), illegalOpcode_of_skip hskip, hz]
  exact advance_eq_pc_add (len := 1) (Nat.lt_of_succ_lt (fetch_fits hp))

/-- The slide: from `n` bytes below 254, over zeros, `n` cycles skip and one more faults at 254 (R208). -/
theorem run_of_zeros_of_skip {n : Nat} {s : State} (hr : s.status = .running) (hl : s.cfg.lookup 0 = none)
    (hskip : s.cfg.illegalOpcodePolicy = .skip) (hn : s.pc.toNat + n = 254)
    (hz : ∀ a : Nat, s.pc.toNat ≤ a → s.cell a = 0) :
    Sys2Proof.core.run (n + 1) s = .next ((s.setPc 254).raised .outOfBoundsAddress 256) := by
  induction n generalizing s with
  | zero =>
    have hpc : s.pc = 254 := BitVec.eq_of_toNat_eq hn
    have hstep : step s = .next ((s.setPc 254).raised .outOfBoundsAddress 256) := by
      rw [← hpc]
      exact step_of_fetch_ge hr (by rw [memSize]; omega)
    exact run_succ_of_next (M := Sys2Proof.core) hstep
  | succ n ih =>
    have hp : s.pc.toNat ≤ 253 := by omega
    have hpc := toNat_pc_add_one hp
    have hslide : Sys2Proof.core.run (n + 1) (s.setPc (s.pc + 1)) =
        .next ((s.setPc 254).raised .outOfBoundsAddress 256) :=
      ih (s := s.setPc (s.pc + 1)) hr hl hskip (by rw [State.setPc_pc, hpc]; omega)
        fun a ha => hz a (by rw [State.setPc_pc, hpc] at ha; omega)
    exact (run_succ_of_next (M := Sys2Proof.core) (step_of_zero_of_skip hr hl hskip hp (hz _ le_rfl))).trans hslide

/-- Settles O55: under `fault` it is the rule of an unbound byte; under `skip`, the slide to 254. -/
theorem unloadedMemoryFaultsOrSlides : Obligations.UnloadedMemoryFaultsOrSlides := by
  refine ⟨fun s hr hl hfault hp hz => ?_, fun s hr hl hskip hp hz => ?_⟩
  · obtain ⟨hillegal, -, -⟩ := unboundOpcodeFaultsOrSkips s hr hp (by rw [hz, hl])
    rw [hillegal hfault, hz]
    rfl
  · rw [show 255 - s.pc.toNat = (254 - s.pc.toNat) + 1 by omega]
    exact run_of_zeros_of_skip hr hl hskip (by omega) hz

end Sys2Proof.Machine
end
